-- ==== Sys2Proof/Word.lean ====
section
/-! DEFINITION. The machine word, the register index and the condition mask (00_scope.md R5, R6). -/

namespace Sys2Proof

/-- A register, a memory word and an instruction word: a pattern of 32 bits, bit 0 the least
significant (00_scope.md R6, R7; the width is the spec's decision D4, log 11). -/
abbrev Word := BitVec 32

/-- A register index. The type has exactly the 16 indices of 10_state.md R21, so no index can be out
of range (42_regfile.md R143). -/
abbrev RegIdx := Fin 16

/-- Four independent condition bits, the layout shared by the `flags` register and the `cond` field
of an instruction: bit 0 is M, bit 1 is Z, bit 2 is P, bit 3 is V (10_state.md R29,
30_encoding.md R75; the values are the spec's decision D5, log 10). -/
abbrev Mask := BitVec 4

end Sys2Proof
end

