-- ==== Sys2Proof/Syntax.lean ====
section
/-! DEFINITION. The decoded instruction (40_decoder.md R101, R102): eight operations, one format. -/

namespace Sys2Proof

/-- The eight operation codes of 30_encoding.md R73. -/
inductive Op where
  | halt | load | store | add | nop | sub | mul | div
  deriving DecidableEq, Repr

/-- A decoded instruction: one constructor for each operation of 30_encoding.md R73, each with every
field of the one format of R71, used by the operation or not (R85). The operation-code values 8 to
31 decode to `nop`, and the decoded instruction does not record which value it was (R74). -/
inductive Instr where
  /-- HALT, 46_control.md R200. -/
  | halt (cond : Mask) (rt rs1 rs2 : RegIdx) (off : Int)
  /-- LOAD, 45_load_store.md R190. -/
  | load (cond : Mask) (rt rs1 rs2 : RegIdx) (off : Int)
  /-- STORE, 45_load_store.md R191. -/
  | store (cond : Mask) (rt rs1 rs2 : RegIdx) (off : Int)
  /-- ADD, 44_arithmetic.md R180. -/
  | add (cond : Mask) (rt rs1 rs2 : RegIdx) (off : Int)
  /-- NOP, 46_control.md R201. -/
  | nop (cond : Mask) (rt rs1 rs2 : RegIdx) (off : Int)
  /-- SUB, 44_arithmetic.md R181. -/
  | sub (cond : Mask) (rt rs1 rs2 : RegIdx) (off : Int)
  /-- MUL, 44_arithmetic.md R182. -/
  | mul (cond : Mask) (rt rs1 rs2 : RegIdx) (off : Int)
  /-- DIV, 44_arithmetic.md R183. -/
  | div (cond : Mask) (rt rs1 rs2 : RegIdx) (off : Int)
  deriving DecidableEq, Repr

/-- The decoder's output record put together from its fields (40_decoder.md R102). -/
def Instr.ofFields (op : Op) (cond : Mask) (rt rs1 rs2 : RegIdx) (off : Int) : Instr :=
  match op with
  | .halt => .halt cond rt rs1 rs2 off
  | .load => .load cond rt rs1 rs2 off
  | .store => .store cond rt rs1 rs2 off
  | .add => .add cond rt rs1 rs2 off
  | .nop => .nop cond rt rs1 rs2 off
  | .sub => .sub cond rt rs1 rs2 off
  | .mul => .mul cond rt rs1 rs2 off
  | .div => .div cond rt rs1 rs2 off

/-- The decoder's `op` output (40_decoder.md R101). -/
def Instr.op : Instr → Op
  | .halt .. => .halt
  | .load .. => .load
  | .store .. => .store
  | .add .. => .add
  | .nop .. => .nop
  | .sub .. => .sub
  | .mul .. => .mul
  | .div .. => .div

/-- The decoder's `cond` output (40_decoder.md R101). -/
def Instr.cond : Instr → Mask
  | .halt c _ _ _ _ | .load c _ _ _ _ | .store c _ _ _ _ | .add c _ _ _ _
  | .nop c _ _ _ _ | .sub c _ _ _ _ | .mul c _ _ _ _ | .div c _ _ _ _ => c

/-- The decoder's `rt` output (40_decoder.md R101). -/
def Instr.rt : Instr → RegIdx
  | .halt _ r _ _ _ | .load _ r _ _ _ | .store _ r _ _ _ | .add _ r _ _ _
  | .nop _ r _ _ _ | .sub _ r _ _ _ | .mul _ r _ _ _ | .div _ r _ _ _ => r

/-- The decoder's `rs1` output (40_decoder.md R101). -/
def Instr.rs1 : Instr → RegIdx
  | .halt _ _ r _ _ | .load _ _ r _ _ | .store _ _ r _ _ | .add _ _ r _ _
  | .nop _ _ r _ _ | .sub _ _ r _ _ | .mul _ _ r _ _ | .div _ _ r _ _ => r

/-- The decoder's `rs2` output (40_decoder.md R101). -/
def Instr.rs2 : Instr → RegIdx
  | .halt _ _ _ r _ | .load _ _ _ r _ | .store _ _ _ r _ | .add _ _ _ r _
  | .nop _ _ _ r _ | .sub _ _ _ r _ | .mul _ _ _ r _ | .div _ _ _ r _ => r

/-- The decoder's `off` output, a signed number (40_decoder.md R101). -/
def Instr.off : Instr → Int
  | .halt _ _ _ _ k | .load _ _ _ _ k | .store _ _ _ _ k | .add _ _ _ _ k
  | .nop _ _ _ _ k | .sub _ _ _ _ k | .mul _ _ _ _ k | .div _ _ _ _ k => k

end Sys2Proof
end

