-- ==== Sys2Proof/Decode.lean ====
section
/-! DEFINITION. The instruction decoder block (40_decoder.md) and its inverse, the encoder
(30_encoding.md R81). Bit positions are those of 30_encoding.md R71. -/

namespace Sys2Proof

/-- `w[30:26]`, the operation-code field. -/
def opfField (w : Word) : BitVec 5 := w.extractLsb' 26 5

/-- `w[25:22]`, the predicate. -/
def condField (w : Word) : Mask := w.extractLsb' 22 4

/-- `w[21:18]`, the target register. -/
def rtField (w : Word) : RegIdx := (w.extractLsb' 18 4).toFin

/-- `w[17:14]`, the first source register. -/
def rs1Field (w : Word) : RegIdx := (w.extractLsb' 14 4).toFin

/-- `w[13:10]`, the second source register. -/
def rs2Field (w : Word) : RegIdx := (w.extractLsb' 10 4).toFin

/-- `w[9:0]` read as two's complement, −512 to 511 (30_encoding.md R77). -/
def offField (w : Word) : Int := (w.extractLsb' 0 10).toInt

/-- The opcode map of 30_encoding.md R73; the values 8 to 31 are NOP (R74, decision D3, log 10). -/
def opOfCode (opf : BitVec 5) : Op :=
  match opf.toNat with
  | 0 => .halt
  | 1 => .load
  | 2 => .store
  | 3 => .add
  | 4 => .nop
  | 5 => .sub
  | 6 => .mul
  | 7 => .div
  | _ => .nop

/-- 40_decoder.md R102. Total: every one of the 2^32 words is an instruction, so no word is rejected
(R103, 30_encoding.md R79). Bit 31 is not read (R72). -/
def decode (w : Word) : Instr :=
  .ofFields (opOfCode (opfField w)) (condField w) (rtField w) (rs1Field w) (rs2Field w) (offField w)

/-- `num(op)` of 30_encoding.md R81. -/
def codeOfOp : Op → BitVec 5
  | .halt => 0#5
  | .load => 1#5
  | .store => 2#5
  | .add => 3#5
  | .nop => 4#5
  | .sub => 5#5
  | .mul => 6#5
  | .div => 7#5

/-- A word laid out from its fields, bit 31 written as 0 (30_encoding.md R71, R72, R81). -/
def wordOfFields (opf : BitVec 5) (cond : Mask) (rt rs1 rs2 : RegIdx) (off : BitVec 10) : Word :=
  0#1 ++ (opf ++ (cond ++ (BitVec.ofFin (w := 4) rt ++ (BitVec.ofFin (w := 4) rs1 ++
    (BitVec.ofFin (w := 4) rs2 ++ off)))))

/-- The encoder, 30_encoding.md R81: the word of a well-formed instruction. -/
def encode (i : Instr) : Word :=
  wordOfFields (codeOfOp i.op) i.cond i.rt i.rs1 i.rs2 (BitVec.ofInt 10 i.off)

/-- The instruction read from an opcode-table row's bits: `w` has `nbits` bits, every higher bit of
the one-word instruction is 0. The decoder refuses no word, so the answer is never `none` (log 21). -/
def decodeTableWord (nbits w : Nat) : Option Instr :=
  some (decode (BitVec.ofNat 32 (w % 2 ^ nbits)))

end Sys2Proof
end

