-- ==== Sys2Proof/Config.lean ====
section
/-! DEFINITION. What a platform fixes and the spec leaves OPEN: the memory behind the connection
(20_memory.md R52, decision D10). -/

namespace Sys2Proof

/-- The largest size a memory may have, in words (20_memory.md R52: `0 < MEM_WORDS ≤ 2^31`). -/
def Config.maxMemWords : Nat := 2147483648

/-- DESIGN CHOICE (log 2), unsafe: the size of the memory that `State.reset` is connected to. The
spec leaves `MEM_WORDS` OPEN and gives 512 as its default for tests (92_eei_decisions.md). The size
of any other state is that state's own field, so a statement over all states covers every size. -/
def Config.memWords : Nat := 512

/-- DESIGN CHOICE (log 3), unsafe: what a memory word that is not listed reads as. The spec leaves
the initial contents OPEN and takes zero as its default for tests (92_eei_decisions.md). -/
def Config.blankWord : Word := 0#32

end Sys2Proof
end

