-- ==== Sys2Proof/Machine/State.lean ====
section
/-! DEFINITION. The state of the machine as plain data (10_state.md), the ways a step can stop, and
the state after reset. -/

namespace Sys2Proof.Machine

/-- The memory behind the connection (20_memory.md R52): word-addressed, words of 32 bits, no bytes
(R51, R55, log 1). `cells` lists the words that differ from `Config.blankWord`, by word address. -/
structure Memory where
  /-- `MEM_WORDS`: the words have addresses 0 to `size - 1`. No step changes it. -/
  size : Nat
  /-- The listed words, addresses strictly rising. -/
  cells : List (Nat × Word)
  deriving DecidableEq, Repr

/-- The canonical form: a size the spec allows, addresses strictly rising and below the size, and no
entry equal to what an unlisted address reads as. Equal memories are then equal data. -/
abbrev Memory.wf (m : Memory) : Prop :=
  (0 < m.size ∧ m.size ≤ Config.maxMemWords) ∧
  m.cells.Pairwise (fun c d => c.1 < d.1) ∧
  ∀ c ∈ m.cells, c.1 < m.size ∧ c.2 ≠ Config.blankWord

/-- The whole state: 10_state.md R20 gives the first three fields "exactly"; the memory is the state
of the connection (20_memory.md R50). -/
structure State where
  /-- The register file, slots 0 to 15 (10_state.md R21). Slot 0 is never read or written: register 0
  is hard-wired (R22, `readReg`, `writeReg`). Slot 15 is the program counter (R23). -/
  regs : Vector Word 16
  /-- The condition-flag register (10_state.md R29). -/
  flags : Mask
  /-- The halted bit (10_state.md R33). -/
  halted : Bool
  /-- The memory connection's words. -/
  mem : Memory
  deriving DecidableEq, Repr

/-- Why a cycle has no next state. -/
inductive Fault where
  /-- `MemFault(addr)` of 60_exceptions.md R224: raised by the instruction fetch, by an executed LOAD
  or by an executed STORE whose address is negative or not below the size of the memory. `left` is
  the state at the fault (R224): of a fetch fault, the state before the cycle; of a data fault, that
  state with the program counter advanced. Safe: the hardware leaves the access to the memory, which
  might answer some value, and the model says nothing of what follows (log 6). -/
  | memFault (addr : Int) (left : State)
  deriving DecidableEq, Repr

/-- Why an instruction is refused. -/
inductive Refusal where
  /-- Raised by `exec` alone, for an instruction with no meaning yet: now for none, every instruction
  has its meaning. Safe: nothing is claimed of what follows. -/
  | notModelled (mnemonic : String)
  deriving DecidableEq, Repr

/-- How one cycle ends. -/
abbrev Result := Host.Outcome State Fault Refusal

/-- Reset: the construction of a core with a memory connection (70_reset_and_hazards.md R250). The
values are those of 10_state.md R38: `flags` is ALWAYS and `halted` is false by the source, the zeros
of registers 1 to 15 are DESIGN CHOICE (decision D11, log 4). -/
def State.construct (mem : Memory) : State :=
  { regs := Vector.replicate 16 0#32, flags := 15#4, halted := false, mem := mem }

/-- The machine right after reset, connected to a memory of the default size with nothing listed
(logs 2 and 3). -/
def State.reset : State := State.construct { size := Config.memWords, cells := [] }

end Sys2Proof.Machine
end

