-- ==== Sys2Proof/Machine/Ops.lean ====
section
/-! DEFINITION. The named operations over registers and memory, and the fetch. The hardware has no
trap entry and no return from one (60_exceptions.md R228, R229), so there is no operation for them;
an access outside the memory ends the run by `memFault`. -/

namespace Sys2Proof.Machine

/-! ### Field updates -/

/-- The state with another register file. -/
def State.withRegs (s : State) (regs : Vector Word 16) : State := { s with regs := regs }

/-- `flags <- f`. -/
def State.withFlags (s : State) (f : Mask) : State := { s with flags := f }

/-- `halted <- b`. -/
def State.withHalted (s : State) (b : Bool) : State := { s with halted := b }

/-- The state with another memory behind the connection. -/
def State.withMem (s : State) (m : Memory) : State := { s with mem := m }

/-! ### Readings of a pattern -/

/-- `signed_32(p)` of 00_scope.md R7. -/
def signed32 (p : Word) : Int := p.toInt

/-- `bits_32(v)` of 00_scope.md R7: `v mod 2^32`. -/
def bits32 (v : Int) : Word := BitVec.ofInt 32 v

/-! ### Registers -/

/-- The index of the program counter (10_state.md R23). -/
def pcReg : RegIdx := 15

/-- The pattern in a register: `get` of 42_regfile.md R141. Index 0 always reads 0 (10_state.md R22). -/
def readReg (s : State) (i : RegIdx) : Word := if i = 0 then 0#32 else s.regs[i]

/-- `put` of 42_regfile.md R142, of a pattern. A write to index 0 is dropped (10_state.md R22). -/
def writeReg (s : State) (i : RegIdx) (w : Word) : State :=
  if i = 0 then s else s.withRegs (s.regs.set i w)

/-- `x[i]` of 00_scope.md R8: the signed value of a register. -/
def State.x (s : State) (i : RegIdx) : Int := signed32 (readReg s i)

/-- The program counter, a word address (10_state.md R26). -/
def State.pc (s : State) : Int := s.x pcReg

/-- The increment of the program counter: modulo 2^32 on the pattern, no flag, no range check
(10_state.md R27, R28; the wrap is decision D8, log 12). -/
def advancePc (s : State) : State := writeReg s pcReg (readReg s pcReg + 1#32)

/-! ### Memory -/

/-- The word a list of cells holds at an address; the default where none is listed. -/
def Memory.lookup : List (Nat × Word) → Nat → Word
  | [], _ => Config.blankWord
  | (k, v) :: rest, a => if k = a then v else Memory.lookup rest a

/-- The cells without an entry for an address. -/
def Memory.erase (cells : List (Nat × Word)) (a : Nat) : List (Nat × Word) :=
  cells.filter (fun c => c.1 ≠ a)

/-- The cells with an entry put in at its place in the rising order. -/
def Memory.place (a : Nat) (w : Word) : List (Nat × Word) → List (Nat × Word)
  | [] => [(a, w)]
  | (k, v) :: rest => if a < k then (a, w) :: (k, v) :: rest else (k, v) :: Memory.place a w rest

/-- The cells after a word is stored: storing the default removes the entry. -/
def Memory.update (cells : List (Nat × Word)) (a : Nat) (w : Word) : List (Nat × Word) :=
  if w = Config.blankWord then Memory.erase cells a else Memory.place a w (Memory.erase cells a)

/-- Whether an integer is the address of a word of the memory (20_memory.md R52). -/
abbrev Memory.has (m : Memory) (addr : Int) : Prop := 0 ≤ addr ∧ addr < m.size

/-- The word at an address of the memory. -/
def Memory.word (m : Memory) (a : Nat) : Word := Memory.lookup m.cells a

/-- `MemRead(addr)` of 20_memory.md R52; `none` is its `MemFault(addr)`. -/
def Memory.read (m : Memory) (addr : Int) : Option Word :=
  if m.has addr then some (m.word addr.toNat) else none

/-- `MemWrite(addr, v)` of 20_memory.md R52; `none` is its `MemFault(addr)`. -/
def Memory.write (m : Memory) (addr : Int) (w : Word) : Option Memory :=
  if m.has addr then some { m with cells := Memory.update m.cells addr.toNat w } else none

/-- The outcome `MemFault(addr)` with the state at the fault (60_exceptions.md R224). -/
def memFault (addr : Int) (left : State) : Result := .fault (.memFault addr left)

/-! ### Fetch -/

/-- The word at the address the program counter holds (43_sequencer.md R157). -/
def fetch (s : State) : Option Word := s.mem.read s.pc

end Sys2Proof.Machine
end

