-- ==== Sys2Proof/Machine/Flags.lean ====
section
/-! DEFINITION. The condition flags: their values, the classification of a result, and the
predicate test. -/

namespace Sys2Proof.Machine

/-- The condition the ALU returns, exactly one of four (41_alu.md R124). -/
inductive AluFlag where
  | minus | zero | positive | overflow
  deriving DecidableEq, Repr

/-- The bit of `flags` that stands for a condition: M = 1, Z = 2, P = 4, V = 8 (10_state.md R29,
decision D5, log 10). -/
def AluFlag.mask : AluFlag → Mask
  | .minus => 1#4
  | .zero => 2#4
  | .positive => 4#4
  | .overflow => 8#4

/-- Step 3 of 41_alu.md R122: the condition of an exact in-range value. -/
def classify (e : Int) : AluFlag :=
  if e < 0 then .minus else if e = 0 then .zero else .positive

/-- The range of a 32-bit two's-complement register, −2^31 to 2^31 − 1 (41_alu.md R125, decision D4,
log 11). -/
abbrev inRange (v : Int) : Prop := -2147483648 ≤ v ∧ v ≤ 2147483647

/-- The predicate test, line 5 of 43_sequencer.md R156: the bitwise and of `flags` and `cond` is not
NEVER (R159). -/
def satisfied (flags cond : Mask) : Bool := flags &&& cond != 0#4

/-- A predicated cycle (43_sequencer.md R159, R160): where the test fails the only effect is the
increment of the program counter. -/
def predicated (cond : Mask) (s : State) (executed : Result) : Result :=
  if satisfied s.flags cond then executed else .next (advancePc s)

end Sys2Proof.Machine
end

