-- ==== Sys2Proof/Machine/Alu.lean ====
section
/-! DEFINITION. The arithmetic/logic unit block (41_alu.md): exact arithmetic over the integers, one
range check, one classification. -/

namespace Sys2Proof.Machine

/-- The ALU's outputs (41_alu.md R121). -/
structure AluOut where
  result : Int
  flag : AluFlag
  deriving DecidableEq, Repr

/-- Step 1 of 41_alu.md R122: the exact value, `none` on a division by zero. DIV rounds toward minus
infinity (R126, decision D6, log 9). -/
def exactValue (op : Op) (a b : Int) : Option Int :=
  match op with
  | .add => some (a + b)
  | .sub => some (a - b)
  | .mul => some (a * b)
  | .div => if b = 0 then none else some (a.fdiv b)
  | .load => some (a + b)
  | .store => some (a + b)
  | .halt => some 0
  | .nop => some 0

/-- Steps 2 and 3 of 41_alu.md R122: an out-of-range value, like a division by zero, is result 0 with
V; nothing wraps or saturates (R125). -/
def aluOfExact : Option Int → AluOut
  | none => { result := 0, flag := .overflow }
  | some e => if inRange e then { result := e, flag := classify e } else { result := 0, flag := .overflow }

/-- `ALU(op, a, b)` of 41_alu.md R122. -/
def alu (op : Op) (a b : Int) : AluOut := aluOfExact (exactValue op a b)

end Sys2Proof.Machine
end

