-- ==== Sys2Proof/Machine/Operands.lean ====
section
/-! DEFINITION. The one operand form (30_encoding.md R78) and the one addressing mode
(45_load_store.md R192). Both read the registers before the program counter is advanced. -/

namespace Sys2Proof.Machine

/-- `left <- x[rs1]` (43_sequencer.md R161). -/
def leftOperand (s : State) (rs1 : RegIdx) : Int := s.x rs1

/-- `right <- x[rs2] + off`, the exact sum (43_sequencer.md R161, decision D7, log 13). -/
def rightOperand (s : State) (rs2 : RegIdx) (off : Int) : Int := s.x rs2 + off

/-- The ALU call of a cycle (43_sequencer.md R162). -/
def aluOf (op : Op) (s : State) (rs1 rs2 : RegIdx) (off : Int) : AluOut :=
  alu op (leftOperand s rs1) (rightOperand s rs2 off)

/-- The address of a LOAD: the ALU's result under LOAD, its flag dropped. A sum outside the 32-bit
range gives address 0 (45_load_store.md R192, R193, decision D9, log 8). -/
def loadAddress (s : State) (rs1 rs2 : RegIdx) (off : Int) : Int := (aluOf .load s rs1 rs2 off).result

/-- The address of a STORE: the ALU's result under STORE, its flag dropped (45_load_store.md R192,
R193). -/
def storeAddress (s : State) (rs1 rs2 : RegIdx) (off : Int) : Int := (aluOf .store s rs1 rs2 off).result

end Sys2Proof.Machine
end

