-- ==== Sys2Proof/Machine/Arithmetic.lean ====
section
/-! DEFINITION. ADD, SUB, MUL, DIV (44_arithmetic.md), the only instructions that write `flags`. -/

namespace Sys2Proof.Machine

/-- Lines 7 to 11 of 43_sequencer.md R156 for an arithmetic operation: the operands are read, the
program counter advances, then the result goes to `x[rt]` (dropped for register 0, replacing the
increment for register 15) and the flag to `flags`, whatever `rt` is (R165). -/
def commitArithmetic (out : AluOut) (rt : RegIdx) (s : State) : State :=
  (writeReg (advancePc s) rt (bits32 out.result)).withFlags out.flag.mask

/-- The template of 44_arithmetic.md R184. -/
def arithmeticCycle (op : Op) (cond : Mask) (rt rs1 rs2 : RegIdx) (off : Int) (s : State) : Result :=
  predicated cond s (.next (commitArithmetic (aluOf op s rs1 rs2 off) rt s))

/-- ADD, 44_arithmetic.md R180. -/
def execAdd (cond : Mask) (rt rs1 rs2 : RegIdx) (off : Int) (s : State) : Result :=
  arithmeticCycle .add cond rt rs1 rs2 off s

/-- SUB, 44_arithmetic.md R181. -/
def execSub (cond : Mask) (rt rs1 rs2 : RegIdx) (off : Int) (s : State) : Result :=
  arithmeticCycle .sub cond rt rs1 rs2 off s

/-- MUL, 44_arithmetic.md R182. -/
def execMul (cond : Mask) (rt rs1 rs2 : RegIdx) (off : Int) (s : State) : Result :=
  arithmeticCycle .mul cond rt rs1 rs2 off s

/-- DIV, 44_arithmetic.md R183. -/
def execDiv (cond : Mask) (rt rs1 rs2 : RegIdx) (off : Int) (s : State) : Result :=
  arithmeticCycle .div cond rt rs1 rs2 off s

end Sys2Proof.Machine
end

