-- ==== Sys2Proof/Machine/Control.lean ====
section
/-! DEFINITION. HALT and NOP (46_control.md). Neither uses `rt`, `rs1`, `rs2` or `off`; the operand
reads and the ALU call of 43_sequencer.md R161, R162 leave no trace for them (log 22). -/

namespace Sys2Proof.Machine

/-- HALT, 46_control.md R200: the program counter advances, then `halted <- true`. -/
def execHalt (cond : Mask) (_rt _rs1 _rs2 : RegIdx) (_off : Int) (s : State) : Result :=
  predicated cond s (.next ((advancePc s).withHalted true))

/-- NOP, 46_control.md R201 (decision D20, log 15): executed or skipped, only the program counter
advances. -/
def execNop (cond : Mask) (_rt _rs1 _rs2 : RegIdx) (_off : Int) (s : State) : Result :=
  predicated cond s (.next (advancePc s))

end Sys2Proof.Machine
end

