-- ==== Sys2Proof/Machine/LoadStore.lean ====
section
/-! DEFINITION. LOAD and STORE (45_load_store.md). Neither writes `flags`. -/

namespace Sys2Proof.Machine

/-- `x[rt] <- MemRead(ea)` after the advance (43_sequencer.md R164). The read is made for register 0
too (45_load_store.md R195); outside the memory the state at the fault has the program counter
advanced and nothing else (60_exceptions.md R224). -/
def commitLoad (ea : Int) (rt : RegIdx) (s : State) : Result :=
  match s.mem.read ea with
  | some w => .next (writeReg (advancePc s) rt w)
  | none => memFault ea (advancePc s)

/-- `MemWrite(ea, x[rt])` after the advance: register 15 is stored as the address of the next
instruction (45_load_store.md R194, decision D13, log 14). -/
def commitStore (ea : Int) (rt : RegIdx) (s : State) : Result :=
  match s.mem.write ea (readReg (advancePc s) rt) with
  | some m => .next ((advancePc s).withMem m)
  | none => memFault ea (advancePc s)

/-- LOAD, 45_load_store.md R190. -/
def execLoad (cond : Mask) (rt rs1 rs2 : RegIdx) (off : Int) (s : State) : Result :=
  predicated cond s (commitLoad (loadAddress s rs1 rs2 off) rt s)

/-- STORE, 45_load_store.md R191. -/
def execStore (cond : Mask) (rt rs1 rs2 : RegIdx) (off : Int) (s : State) : Result :=
  predicated cond s (commitStore (storeAddress s rs1 rs2 off) rt s)

end Sys2Proof.Machine
end

