-- ==== Sys2Proof/Machine/Dispatch.lean ====
section
/-! DEFINITION. One arm per instruction: lines 5 to 11 of the cycle, 43_sequencer.md R156. -/

namespace Sys2Proof.Machine

def exec (i : Instr) (s : State) : Host.Outcome State Fault Refusal :=
  match i with
  | .halt cond rt rs1 rs2 off => Sys2Proof.Machine.execHalt cond rt rs1 rs2 off s
  | .load cond rt rs1 rs2 off => Sys2Proof.Machine.execLoad cond rt rs1 rs2 off s
  | .store cond rt rs1 rs2 off => Sys2Proof.Machine.execStore cond rt rs1 rs2 off s
  | .add cond rt rs1 rs2 off => Sys2Proof.Machine.execAdd cond rt rs1 rs2 off s
  | .nop cond rt rs1 rs2 off => Sys2Proof.Machine.execNop cond rt rs1 rs2 off s
  | .sub cond rt rs1 rs2 off => Sys2Proof.Machine.execSub cond rt rs1 rs2 off s
  | .mul cond rt rs1 rs2 off => Sys2Proof.Machine.execMul cond rt rs1 rs2 off s
  | .div cond rt rs1 rs2 off => Sys2Proof.Machine.execDiv cond rt rs1 rs2 off s

end Sys2Proof.Machine
end

