-- ==== Sys2Proof/Machine/Step.lean ====
section
/-! DEFINITION. One cycle of the sequencer (43_sequencer.md R156). -/

namespace Sys2Proof.Machine

/-- `step()` of 43_sequencer.md R156: fetch, decode, then `exec`. It does not read `halted` (R169,
decision D12, log 7). A fetch outside the memory ends the cycle with no effect (R157). The
observation event of line 4 changes no state and is `observe` (Machine/HostPort.lean). -/
def step (s : State) : Host.Outcome State Fault Refusal :=
  match fetch s with
  | some w => exec (decode w) s
  | none => memFault s.pc s

/-- The state with one instruction word stored where `step` fetches: at the program counter where
that is an address of the memory, else at address 0 with the program counter set to it (log 5). -/
def State.withFetchWord (s : State) (nbits w : Nat) : State :=
  let at0 := if s.mem.has s.pc then s else writeReg s pcReg 0#32
  at0.withMem { at0.mem with
    cells := Memory.update at0.mem.cells at0.pc.toNat (BitVec.ofNat 32 (w % 2 ^ nbits)) }

end Sys2Proof.Machine
end

