-- ==== Sys2Proof/Machine/HostPort.lean ====
section
/-! DEFINITION. What the host can do between cycles (70_reset_and_hazards.md R257), the entry point
`run` (43_sequencer.md R168) and the observation event (R158). None of this is a part of `step`. -/

namespace Sys2Proof.Machine

/-! ### The observation event -/

/-- The event of 43_sequencer.md R158: fetch address, raw word, decoded instruction. -/
structure Observation where
  address : Int
  word : Word
  instr : Instr
  deriving DecidableEq, Repr

/-- The event a cycle from `s` emits, before execution and whatever the predicate (43_sequencer.md
R158); none where the fetch faults (R156 lines 2 to 4). It is an output, never state (decision D18,
log 16). -/
def observe (s : State) : Option Observation :=
  (fetch s).map (fun w => { address := s.pc, word := w, instr := decode w })

/-! ### Host access between cycles -/

/-- Host `get` of a register (42_regfile.md R141, R145). -/
def hostGet (s : State) (i : RegIdx) : Int := s.x i

/-- Host `put` of a register; a write to register 0 is dropped (42_regfile.md R142, R145). -/
def hostPut (s : State) (i : RegIdx) (v : Int) : State := writeReg s i (bits32 v)

/-- Host read of a memory word through the connection; `none` outside the memory. -/
def hostReadMem (s : State) (addr : Int) : Option Int := (s.mem.read addr).map signed32

/-- Host write of a memory word through the connection; `none` outside the memory. -/
def hostWriteMem (s : State) (addr : Int) (v : Int) : Option State :=
  (s.mem.write addr (bits32 v)).map s.withMem

/-! ### `run` -/

/-- How a run under fuel ends (43_sequencer.md R171: a model executes under fuel, log 18). -/
inductive RunEnd where
  /-- The loop's only exit: `halted` is true. -/
  | finished (s : State)
  /-- Not halted, and no cycle left in the fuel. -/
  | outOfFuel (s : State)
  /-- A cycle had no next state. -/
  | stopped (f : Fault)
  /-- A cycle was refused: happens only for an instruction with no meaning. -/
  | refused (r : Refusal)
  deriving DecidableEq, Repr

/-- `halted <- false; x[15] <- start` (43_sequencer.md R168, 70_reset_and_hazards.md R252). -/
def launch (start : Int) (s : State) : State := writeReg (s.withHalted false) pcReg (bits32 start)

/-- `while not halted do step()` (43_sequencer.md R168), at most `fuel` cycles. -/
def runLoop (fuel : Nat) (s : State) : RunEnd :=
  if s.halted then .finished s else
  match fuel with
  | 0 => .outOfFuel s
  | n + 1 =>
    match step s with
    | .next t => runLoop n t
    | .fault f => .stopped f
    | .refused r => .refused r

/-- `run(start)` (43_sequencer.md R168). The single-step mode must not alter results and is left out
(R170, log 17). -/
def run (fuel : Nat) (start : Int) (s : State) : RunEnd := runLoop fuel (launch start s)

/-- The events of a run, in order: one for each cycle whose fetch is in the memory (43_sequencer.md
R158). -/
def runEvents (fuel : Nat) (s : State) : List Observation :=
  if s.halted then [] else
  match fuel with
  | 0 => []
  | n + 1 =>
    (observe s).toList ++
    match step s with
    | .next t => runEvents n t
    | .fault _ => []
    | .refused _ => []

end Sys2Proof.Machine
end

