-- ==== Sys2Proof/WellFormed.lean ====
section
/-! DEFINITION. Which decoded instructions have an encoding. -/

namespace Sys2Proof

/-- The one bound the types do not carry: the signed offset has ten bits, so it lies in −512 to 511
(30_encoding.md R77, R81). Every mask and every register index of the types is legal (R75, R76). -/
abbrev Instr.wf (i : Instr) : Prop := -512 ≤ i.off ∧ i.off ≤ 511

end Sys2Proof
end

