-- ==== Sys2Proof/Safety.lean ====
section
/-! DEFINITION. What counts as a good state and a safe run, in the terms the claims use. -/

namespace Sys2Proof.Machine

/-- The reachable values of `flags` (10_state.md R32): ALWAYS, or exactly one of M, Z, P, V. -/
abbrev reachableFlags (f : Mask) : Prop := f = 15#4 ∨ f = 1#4 ∨ f = 2#4 ∨ f = 4#4 ∨ f = 8#4

/-- The invariant of the machine: the memory has its canonical form and a size the spec allows, the
unused slot of register 0 holds 0, and `flags` has a value of 10_state.md R32. -/
abbrev State.inv (s : State) : Prop := s.mem.wf ∧ s.regs[0] = 0#32 ∧ reachableFlags s.flags

/-- The states that come after `s` by some number of cycles, each with a next state. The cycles of a
halted core are among them (43_sequencer.md R169, decision D12, log 7); that they are counted here is
the model's choice: DESIGN CHOICE, log 26. -/
inductive Reaches (s : State) : State → Prop where
  | refl : Reaches s s
  | tail (t u : State) (first : Reaches s t) (last : step t = .next u) : Reaches s u

/-- Cycle after cycle from `s`, every state reached has a next cycle: no `MemFault`, ever. A claim about
a program proves this or assumes it (60_exceptions.md R224).

DESIGN CHOICE (log 26; safe): the spec leaves open whether the cycles after an executed HALT count in a
program's "no `MemFault`", since a model may keep the steps of a halted core out (43_sequencer.md R169)
and `run` makes none (R168). Here they count, so a program that halts cleanly is not safe in this sense
when stepping on past its HALT leaves the memory. A claim that ends at the HALT is about `run`. -/
def SafeFrom (s : State) : Prop := ∀ t, Reaches s t → ∃ u, step t = .next u

end Sys2Proof.Machine
end

