-- ==== Sys2Proof/Certificates/Slice0/Obligations.lean ====
section
/-! DEFINITION. The statements for the provers. Each is about every state, every operand and every
memory of any size, unless it says otherwise; states that no run reaches are included. -/

open Sys2Proof Sys2Proof.Machine

/-! ### The vocabulary of the statements, written from the rules and not from the meanings -/

namespace Sys2Proof.Claims

/-- The predicate is satisfied: `(flags AND cond) ≠ 0` (43_sequencer.md R159). -/
abbrev Executes (s : State) (cond : Mask) : Prop := s.flags &&& cond ≠ 0#4

/-- The arithmetic-class operations (44_arithmetic.md). -/
abbrev Arithmetic (op : Op) : Prop := op = .add ∨ op = .sub ∨ op = .mul ∨ op = .div

/-- The program counter plus one word; the wrap at 2^31 − 1 is the spec's decision D8 (log 12). -/
def nextPc (s : State) : Int := if s.pc = 2147483647 then -2147483648 else s.pc + 1

/-- The value in place of an exact one: itself in the 32-bit range (decision D4, log 11), else 0
(41_alu.md R122). -/
def answer (e : Int) : Int := if -2147483648 ≤ e ∧ e ≤ 2147483647 then e else 0

/-- M, Z or P by the sign of an exact value in the range, else V (41_alu.md R122; the bit values are
decision D5, log 10). -/
def answerFlag (e : Int) : Mask :=
  if -2147483648 ≤ e ∧ e ≤ 2147483647 then
    if e < 0 then 1#4 else if e = 0 then 2#4 else 4#4
  else 8#4

/-- The exact value of 41_alu.md R122 over the integers; of DIV, the floor of the rational quotient
(R126, decision D6, log 9; of no meaning when `b = 0`). -/
def exact (op : Op) (a b : Int) : Int :=
  match op with
  | .add | .load | .store => a + b
  | .sub => a - b
  | .mul => a * b
  | .div => ⌊(a : ℚ) / (b : ℚ)⌋
  | .halt | .nop => 0

/-- The effective address of 45_load_store.md R192, R193 (an exact sum out of the range gives address
0: decision D9, log 8). -/
def address (s : State) (rs1 rs2 : RegIdx) (off : Int) : Int := answer (s.x rs1 + (s.x rs2 + off))

/-- Only the program counter has moved, by one word, with the wrap of decision D8. -/
abbrev OnlyAdvanced (s t : State) : Prop :=
  t.x 15 = nextPc s ∧ (∀ r, r ≠ 15 → t.x r = s.x r) ∧
    t.flags = s.flags ∧ t.halted = s.halted ∧ t.mem = s.mem

/-- The program counter has advanced by one word, where that needs no wrap: the wrap is no part of
what the rules citing this say (it is decision D8, stated apart). -/
abbrev AdvancedByOne (s t : State) : Prop := s.pc < 2147483647 → t.x 15 = s.pc + 1

/-- The program counter has advanced by one word and nothing else has changed. -/
abbrev OnlyAdvancedByOne (s t : State) : Prop :=
  AdvancedByOne s t ∧ (∀ r, r ≠ 15 → t.x r = s.x r) ∧
    t.flags = s.flags ∧ t.halted = s.halted ∧ t.mem = s.mem

/-- The registers after a cycle that commits `v` to `rt`: register 0 drops it, register 15 holds it
in place of the increment, and no third register changes (42_regfile.md R146). -/
abbrev Committed (s t : State) (rt : RegIdx) (v : Int) : Prop :=
  (rt ≠ 0 → t.x rt = v) ∧ (rt ≠ 15 → t.x 15 = nextPc s) ∧
    ∀ r, r ≠ rt → r ≠ 15 → t.x r = s.x r

/-- The whole next state of an executed arithmetic instruction (44_arithmetic.md R184). -/
abbrev ArithmeticNext (s t : State) (rt : RegIdx) (v : Int) (f : Mask) : Prop :=
  Committed s t rt v ∧ t.flags = f ∧ t.halted = s.halted ∧ t.mem = s.mem

/-- Two outcomes that differ at most in the halted bit of their states. -/
abbrev SameButHalted (o p : Result) : Prop :=
  (∀ t, o = .next t → ∃ b, p = .next (t.withHalted b)) ∧
  (∀ a l, o = .fault (.memFault a l) → ∃ b, p = .fault (.memFault a (l.withHalted b)))

/-- Two outcomes that differ at most in the flags of their states. -/
abbrev SameButFlags (o p : Result) : Prop :=
  (∀ t, o = .next t → ∃ f, p = .next (t.withFlags f)) ∧
  (∀ a l, o = .fault (.memFault a l) → ∃ f, p = .fault (.memFault a (l.withFlags f)))

end Sys2Proof.Claims

open Sys2Proof.Claims

/-! ### Encoding -/

/-- Words of 30_encoding.md R84, R86 and 40_decoder.md R108, one for each operation and one
unrecognised code, decode to the instructions they stand for. -/
def Obligations.WorkedWordsDecode : Prop :=
  decode 0x03C00000#32 = .halt 15#4 0 0 0 0 ∧
  decode 0x07C80064#32 = .load 15#4 2 0 0 100 ∧
  decode 0x0BC40064#32 = .store 15#4 1 0 0 100 ∧
  decode 0x0FC40200#32 = .add 15#4 1 0 0 (-512) ∧
  decode 0x13C00000#32 = .nop 15#4 0 0 0 0 ∧
  decode 0x144D17FF#32 = .sub 1#4 3 4 5 (-1) ∧
  decode 0x1BCC43FE#32 = .mul 15#4 3 1 0 (-2) ∧
  decode 0x1C7FFE00#32 = .div 1#4 15 15 15 (-512) ∧
  decode 0xFFFFFFFF#32 = .nop 15#4 15 15 15 (-1)

/-- 40_decoder.md R105: decoding an encoded instruction gives it back, and encoding is injective. That
the encodings are exactly the 2^29 words below 2^29 is R106, which the spec derives and which rests on
its decisions D1, D2, D3 (log 10). -/
def Obligations.DecodeEncodeRoundTrip : Prop :=
  (∀ i : Instr, i.wf → decode (encode i) = i) ∧
  (∀ i j : Instr, i.wf → j.wf → encode i = encode j → i = j) ∧
  (∀ i : Instr, i.wf → (encode i).toNat < 536870912) ∧
  (∀ w : Word, w.toNat < 536870912 → ∃ i : Instr, i.wf ∧ encode i = w)

/-- 40_decoder.md R106: encoding a decoded word gives the word back exactly for the canonical ones
(bit 31 clear and an operation code of 0 to 7, the words below 0x20000000); of any other word it
clears bit 31 and turns an unrecognised code into 4. Rests on decisions D1, D2, D3 (log 10). -/
def Obligations.EncodeAfterDecodeCanonicalises : Prop :=
  ∀ w : Word,
    (encode (decode w) = w ↔ w.toNat < 536870912) ∧
    (w.toNat < 536870912 ↔ w.getLsbD 31 = false ∧ w.toNat / 2 ^ 26 % 32 ≤ 7) ∧
    (w.toNat / 2 ^ 26 % 32 ≤ 7 → (encode (decode w)).toNat = w.toNat % 2 ^ 31) ∧
    (8 ≤ w.toNat / 2 ^ 26 % 32 → (encode (decode w)).toNat = 4 * 2 ^ 26 + w.toNat % 2 ^ 26)

/-- 30_encoding.md R71, R73, R77: where every field of a word stands, as arithmetic on the word's
number; the decoded instruction is always well formed (40_decoder.md R103). Rests on decisions D1,
D2, D3 (log 10). -/
def Obligations.DecodedFieldsStandWhereTheFormatSays : Prop :=
  ∀ w : Word,
    (decode w).wf ∧
    (decode w).cond.toNat = w.toNat / 2 ^ 22 % 16 ∧
    (decode w).rt.val = w.toNat / 2 ^ 18 % 16 ∧
    (decode w).rs1.val = w.toNat / 2 ^ 14 % 16 ∧
    (decode w).rs2.val = w.toNat / 2 ^ 10 % 16 ∧
    (decode w).off = ((w.toNat % 1024 : Nat) : Int) - (if w.toNat % 1024 < 512 then 0 else 1024) ∧
    ((decode w).op = .halt ↔ w.toNat / 2 ^ 26 % 32 = 0) ∧
    ((decode w).op = .load ↔ w.toNat / 2 ^ 26 % 32 = 1) ∧
    ((decode w).op = .store ↔ w.toNat / 2 ^ 26 % 32 = 2) ∧
    ((decode w).op = .add ↔ w.toNat / 2 ^ 26 % 32 = 3) ∧
    ((decode w).op = .sub ↔ w.toNat / 2 ^ 26 % 32 = 5) ∧
    ((decode w).op = .mul ↔ w.toNat / 2 ^ 26 % 32 = 6) ∧
    ((decode w).op = .div ↔ w.toNat / 2 ^ 26 % 32 = 7) ∧
    ((decode w).op = .nop ↔ w.toNat / 2 ^ 26 % 32 = 4 ∨ 8 ≤ w.toNat / 2 ^ 26 % 32)

/-- 30_encoding.md R72, R74: bit 31 takes no part in decoding and is written as 0, and a word with an
unrecognised code decodes exactly as the word with code 4 and the same other fields. Rests on
decision D3 (log 10). -/
def Obligations.ReservedBitAndUnrecognisedCodes : Prop :=
  (∀ w : Word, decode (w ^^^ 0x80000000#32) = decode w) ∧
  (∀ i : Instr, (encode i).getLsbD 31 = false) ∧
  (∀ w v : Word, 8 ≤ w.toNat / 2 ^ 26 % 32 → v.toNat / 2 ^ 26 % 32 = 4 →
    w.toNat % 2 ^ 26 = v.toNat % 2 ^ 26 → decode w = decode v)

/-! ### The ALU -/

/-- 41_alu.md R122, R124: the flag is exactly one of M, Z, P, V; V marks exactly a division by zero
or an exact value out of the range, and then the result is 0; otherwise the result is the exact
value and the flag its sign. The result is always in the range. Rests on decisions D4, D6 (logs 11
and 9). -/
def Obligations.AluFlagTellsFaults : Prop :=
  ∀ (op : Op) (a b : Int),
    ((alu op a b).flag.mask = 1#4 ∨ (alu op a b).flag.mask = 2#4 ∨
      (alu op a b).flag.mask = 4#4 ∨ (alu op a b).flag.mask = 8#4) ∧
    -2147483648 ≤ (alu op a b).result ∧ (alu op a b).result ≤ 2147483647 ∧
    ((alu op a b).flag.mask = 8#4 ↔
      (op = .div ∧ b = 0) ∨ exact op a b < -2147483648 ∨ 2147483647 < exact op a b) ∧
    ((alu op a b).flag.mask = 8#4 → (alu op a b).result = 0) ∧
    ((alu op a b).flag.mask ≠ 8#4 →
      (alu op a b).result = exact op a b ∧
      ((alu op a b).flag.mask = 1#4 ↔ exact op a b < 0) ∧
      ((alu op a b).flag.mask = 2#4 ↔ exact op a b = 0) ∧
      ((alu op a b).flag.mask = 4#4 ↔ 0 < exact op a b))

/-- 41_alu.md R126: a quotient that is not a fault leaves a remainder with the divisor's sign and
smaller than it, that is, DIV rounds toward minus infinity; any dividend by zero is 0 and V. Rests on
decision D6 (log 9). -/
def Obligations.DivisionRoundsDown : Prop :=
  ∀ a b : Int,
    (b = 0 → (alu .div a b).result = 0 ∧ (alu .div a b).flag.mask = 8#4) ∧
    (b ≠ 0 → (alu .div a b).flag.mask ≠ 8#4 →
      ∃ r, a = (alu .div a b).result * b + r ∧
        (0 < b → 0 ≤ r ∧ r < b) ∧ (b < 0 → b < r ∧ r ≤ 0))

/-! ### The register file -/

/-- 42_regfile.md R144: what is put is got, but for register 0, and nothing else changes. Rests on
decision D4 (log 11). -/
def Obligations.RegisterFileLaws : Prop :=
  ∀ (s : State) (i : RegIdx) (v : Int), -2147483648 ≤ v → v ≤ 2147483647 →
    hostGet (hostPut s 0 v) 0 = 0 ∧
    (i ≠ 0 → hostGet (hostPut s i v) i = v) ∧
    (∀ j, j ≠ i → hostGet (hostPut s i v) j = hostGet s j) ∧
    (hostPut s i v).flags = s.flags ∧ (hostPut s i v).halted = s.halted ∧
    (hostPut s i v).mem = s.mem

/-- 10_state.md R22: register 0 reads 0 in every state; a write to it by the host or by an
instruction has no effect and is not an error. The last clause takes the LOAD's address from
45_load_store.md R193, so it rests on decision D9 (log 8) where the exact sum is out of the range. -/
def Obligations.RegisterZeroIsHardWired : Prop :=
  (∀ s : State, s.x 0 = 0) ∧
  (∀ (s : State) (v : Int), hostPut s 0 v = s) ∧
  (∀ (i : Instr) (s t : State), i.rt = 0 → exec i s = .next t → ∀ r, r ≠ 15 → t.x r = s.x r) ∧
  (∀ (i : Instr) (s : State), i.rt = 0 → Arithmetic i.op → ∃ t, exec i s = .next t) ∧
  (∀ (i : Instr) (s : State), i.rt = 0 → i.op = .load → s.mem.has (address s i.rs1 i.rs2 i.off) →
    ∃ t, exec i s = .next t)

/-! ### The instructions: results -/

/-- 44_arithmetic.md R180: an executed ADD. Rests on decisions D4, D5, D7, D8 (logs 11, 10, 13,
12). -/
def Obligations.AddResult : Prop :=
  ∀ (s : State) (cond : Mask) (rt rs1 rs2 : RegIdx) (off : Int), Executes s cond →
    ∃ t, exec (.add cond rt rs1 rs2 off) s = .next t ∧
      ArithmeticNext s t rt (answer (s.x rs1 + (s.x rs2 + off)))
        (answerFlag (s.x rs1 + (s.x rs2 + off)))

/-- 44_arithmetic.md R181: an executed SUB; the offset is part of the subtrahend. Rests on decisions
D4, D5, D7, D8 (logs 11, 10, 13, 12). -/
def Obligations.SubResult : Prop :=
  ∀ (s : State) (cond : Mask) (rt rs1 rs2 : RegIdx) (off : Int), Executes s cond →
    ∃ t, exec (.sub cond rt rs1 rs2 off) s = .next t ∧
      ArithmeticNext s t rt (answer (s.x rs1 - (s.x rs2 + off)))
        (answerFlag (s.x rs1 - (s.x rs2 + off)))

/-- 44_arithmetic.md R182: an executed MUL; the full product, never its low half. Rests on decisions
D4, D5, D7, D8 (logs 11, 10, 13, 12). -/
def Obligations.MulResult : Prop :=
  ∀ (s : State) (cond : Mask) (rt rs1 rs2 : RegIdx) (off : Int), Executes s cond →
    ∃ t, exec (.mul cond rt rs1 rs2 off) s = .next t ∧
      ArithmeticNext s t rt (answer (s.x rs1 * (s.x rs2 + off)))
        (answerFlag (s.x rs1 * (s.x rs2 + off)))

/-- 44_arithmetic.md R183: an executed DIV; the divisor is `x[rs2] + off`, a zero divisor gives 0 and
V, any other the floor of the quotient. Rests on decisions D4, D5, D6, D7, D8 (logs 11, 10, 9, 13,
12). -/
def Obligations.DivResult : Prop :=
  ∀ (s : State) (cond : Mask) (rt rs1 rs2 : RegIdx) (off : Int), Executes s cond →
    ∃ t, exec (.div cond rt rs1 rs2 off) s = .next t ∧
      (s.x rs2 + off = 0 → ArithmeticNext s t rt 0 8#4) ∧
      (s.x rs2 + off ≠ 0 →
        ArithmeticNext s t rt (answer ⌊((s.x rs1 : Int) : ℚ) / ((s.x rs2 + off : Int) : ℚ)⌋)
          (answerFlag ⌊((s.x rs1 : Int) : ℚ) / ((s.x rs2 + off : Int) : ℚ)⌋))

/-- 45_load_store.md R190, R192, R195: an executed LOAD of a word of the memory; flags untouched.
Rests on decisions D4, D8, D9, D10 (logs 11, 12, 8, 6). -/
def Obligations.LoadResult : Prop :=
  ∀ (s : State) (cond : Mask) (rt rs1 rs2 : RegIdx) (off : Int), Executes s cond →
    0 ≤ address s rs1 rs2 off → address s rs1 rs2 off < s.mem.size →
    ∃ t, exec (.load cond rt rs1 rs2 off) s = .next t ∧
      Committed s t rt (s.mem.word (address s rs1 rs2 off).toNat).toInt ∧
      t.flags = s.flags ∧ t.halted = s.halted ∧ t.mem = s.mem

/-- 45_load_store.md R191, R192, R194: an executed STORE to a word of the memory; register 15 is
stored as the address of the next instruction; flags and registers untouched. Rests on decisions D4,
D8, D9, D10, D13 (logs 11, 12, 8, 6, 14). -/
def Obligations.StoreResult : Prop :=
  ∀ (s : State) (cond : Mask) (rt rs1 rs2 : RegIdx) (off : Int), Executes s cond →
    0 ≤ address s rs1 rs2 off → address s rs1 rs2 off < s.mem.size →
    ∃ t, exec (.store cond rt rs1 rs2 off) s = .next t ∧
      t.x 15 = nextPc s ∧ (∀ r, r ≠ 15 → t.x r = s.x r) ∧
      t.flags = s.flags ∧ t.halted = s.halted ∧ t.mem.size = s.mem.size ∧
      (t.mem.word (address s rs1 rs2 off).toNat).toInt = (if rt = 15 then nextPc s else s.x rt) ∧
      ∀ a, a ≠ (address s rs1 rs2 off).toNat → t.mem.word a = s.mem.word a

/-- 60_exceptions.md R224: an executed LOAD or STORE at an address outside the memory is a `MemFault`
at that address, and the state at the fault has the program counter advanced and nothing else. Rests
on decisions D9, D10 (logs 8 and 6). -/
def Obligations.DataAccessOutsideMemoryFaults : Prop :=
  ∀ (s : State) (cond : Mask) (rt rs1 rs2 : RegIdx) (off : Int), Executes s cond →
    (address s rs1 rs2 off < 0 ∨ s.mem.size ≤ address s rs1 rs2 off) →
    (∃ l, exec (.load cond rt rs1 rs2 off) s = .fault (.memFault (address s rs1 rs2 off) l) ∧
      OnlyAdvanced s l) ∧
    (∃ l, exec (.store cond rt rs1 rs2 off) s = .fault (.memFault (address s rs1 rs2 off) l) ∧
      OnlyAdvanced s l)

/-- 46_control.md R200: an executed HALT sets the halted bit and advances the program counter; no
register, no flag and no word of memory changes. The wrap of the program counter is decision D8
(log 12). -/
def Obligations.HaltResult : Prop :=
  ∀ (s : State) (cond : Mask) (rt rs1 rs2 : RegIdx) (off : Int), Executes s cond →
    ∃ t, exec (.halt cond rt rs1 rs2 off) s = .next t ∧ t.halted = true ∧
      t.x 15 = nextPc s ∧ (∀ r, r ≠ 15 → t.x r = s.x r) ∧ t.flags = s.flags ∧ t.mem = s.mem

/-- 46_control.md R201: NOP, executed or skipped, advances the program counter and does nothing else.
Rests on decisions D8, D20 (logs 12 and 15). -/
def Obligations.NopResult : Prop :=
  ∀ (s : State) (cond : Mask) (rt rs1 rs2 : RegIdx) (off : Int),
    ∃ t, exec (.nop cond rt rs1 rs2 off) s = .next t ∧ OnlyAdvanced s t

/-- 43_sequencer.md R160: of an instruction whose predicate is not satisfied, whatever it is, the
only effect is the advance of the program counter. -/
def Obligations.SkippedInstructionOnlyAdvances : Prop :=
  ∀ (i : Instr) (s : State), s.flags &&& i.cond = 0#4 →
    ∃ t, exec i s = .next t ∧ OnlyAdvancedByOne s t

/-- 43_sequencer.md R165: an executed ADD, SUB, MUL or DIV writes the ALU's result to its target and
the ALU's flag to `flags`, whatever the target is: register 0 drops the result, register 15 loses the
increment, an arithmetic fault writes 0 and V. (What the ALU answers is stated apart, by
AluFlagTellsFaults.) -/
def Obligations.ArithmeticCommitWritesBoth : Prop :=
  ∀ (i : Instr) (s : State), Arithmetic i.op → Executes s i.cond →
    ∃ t, exec i s = .next t ∧
      t.flags = (alu i.op (s.x i.rs1) (s.x i.rs2 + i.off)).flag.mask ∧
      (i.rt ≠ 0 → t.x i.rt = (alu i.op (s.x i.rs1) (s.x i.rs2 + i.off)).result) ∧
      (i.rt = 0 → ∀ r, r ≠ 15 → t.x r = s.x r) ∧
      (i.rt = 15 → t.pc = (alu i.op (s.x i.rs1) (s.x i.rs2 + i.off)).result) ∧
      ((alu i.op (s.x i.rs1) (s.x i.rs2 + i.off)).flag = .overflow →
        t.flags = 8#4 ∧ (i.rt ≠ 0 → t.x i.rt = 0))

/-- 44_arithmetic.md R185: an executed arithmetic instruction with target 15 is a jump that writes
`flags`; on an arithmetic fault it goes to address 0 with V; skipped, it only increments. With the
two worked words of the rule. -/
def Obligations.ArithmeticJump : Prop :=
  (∀ (i : Instr) (s : State), Arithmetic i.op → i.rt = 15 → Executes s i.cond →
    ∃ t, exec i s = .next t ∧
      t.pc = (alu i.op (s.x i.rs1) (s.x i.rs2 + i.off)).result ∧
      t.flags = (alu i.op (s.x i.rs1) (s.x i.rs2 + i.off)).flag.mask ∧
      ((alu i.op (s.x i.rs1) (s.x i.rs2 + i.off)).flag = .overflow → t.pc = 0 ∧ t.flags = 8#4)) ∧
  (∀ (i : Instr) (s : State), Arithmetic i.op → i.rt = 15 → ¬ Executes s i.cond →
    ∃ t, exec i s = .next t ∧ OnlyAdvancedByOne s t) ∧
  (∀ s : State, s.flags ≠ 0#4 → ∃ t, exec (decode 0x0FFC0002#32) s = .next t ∧
    t.pc = 2 ∧ t.flags = 4#4) ∧
  (∀ s : State, s.flags ≠ 0#4 → ∃ t, exec (.add 15#4 15 0 0 0) s = .next t ∧
    t.pc = 0 ∧ t.flags = 2#4)

/-- 44_arithmetic.md R186: with target 0 an executed arithmetic instruction changes no register but
the program counter and still writes `flags`; the rule's worked word sets `flags` from the sign of
register 1. -/
def Obligations.ArithmeticTestWithoutTarget : Prop :=
  (∀ (i : Instr) (s : State), Arithmetic i.op → i.rt = 0 → Executes s i.cond →
    ∃ t, exec i s = .next t ∧ (∀ r, r ≠ 15 → t.x r = s.x r) ∧
      t.flags = (alu i.op (s.x i.rs1) (s.x i.rs2 + i.off)).flag.mask) ∧
  (∀ s : State, s.flags ≠ 0#4 → ∃ t, exec (decode 0x0FC04000#32) s = .next t ∧
    (s.x 1 < 0 → t.flags = 1#4) ∧ (s.x 1 = 0 → t.flags = 2#4) ∧ (0 < s.x 1 → t.flags = 4#4))

/-- 44_arithmetic.md R181: SUB with target 0 and offset 0 compares two registers; the comparison is
told by M, Z or P, or not told (V) when the difference is out of the range. Rests on decisions D4, D5
(logs 11 and 10). -/
def Obligations.SubComparesRegisters : Prop :=
  ∀ (s : State) (cond : Mask) (ra rb : RegIdx), Executes s cond →
    ∃ t, exec (.sub cond 0 ra rb 0) s = .next t ∧
      (∀ r, r ≠ 15 → t.x r = s.x r) ∧
      (-2147483648 ≤ s.x ra - s.x rb ∧ s.x ra - s.x rb ≤ 2147483647 →
        (t.flags = 1#4 ↔ s.x ra < s.x rb) ∧ (t.flags = 2#4 ↔ s.x ra = s.x rb) ∧
        (t.flags = 4#4 ↔ s.x rb < s.x ra)) ∧
      (¬ (-2147483648 ≤ s.x ra - s.x rb ∧ s.x ra - s.x rb ≤ 2147483647) → t.flags = 8#4)

/-- 44_arithmetic.md R188: an arithmetic instruction with predicate M under flag Z writes neither its
target nor `flags`, and the program counter advances by one. -/
def Obligations.MinusPredicateUnderZeroFlag : Prop :=
  ∀ (i : Instr) (s : State), Arithmetic i.op → i.cond = 1#4 → s.flags = 2#4 →
    ∃ t, exec i s = .next t ∧ (i.rt ≠ 15 → t.x i.rt = s.x i.rt) ∧ t.flags = s.flags ∧
      AdvancedByOne s t

/-- 10_state.md R26, 45_load_store.md R194: register 15 as a source is the address of the reading
instruction itself, and as the stored register the address of the next one. Rests on decision D13
(log 14). -/
def Obligations.ProgramCounterAsOperand : Prop :=
  (∀ (s : State) (cond : Mask) (rt : RegIdx) (off : Int), Executes s cond → rt ≠ 0 →
    -2147483648 ≤ s.pc + off → s.pc + off ≤ 2147483647 →
    (∃ t, exec (.add cond rt 15 0 off) s = .next t ∧ t.x rt = s.pc + off) ∧
    (∃ t, exec (.add cond rt 0 15 off) s = .next t ∧ t.x rt = s.pc + off)) ∧
  (∀ (s : State) (cond : Mask) (off : Int), Executes s cond → 0 ≤ off → off < s.mem.size →
    off ≤ 511 →
    ∃ t w, exec (.store cond 15 0 0 off) s = .next t ∧ t.mem.read off = some w ∧
      w.toInt = nextPc s)

/-! ### The instructions: frames -/

/-- What ADD, SUB, MUL and DIV leave unchanged, executed or skipped: every register but the target
and the program counter, the halted bit, every word of memory. -/
def Obligations.ArithmeticFrame : Prop :=
  ∀ (i : Instr) (s t : State), Arithmetic i.op → exec i s = .next t →
    (∀ r, r ≠ i.rt → r ≠ 15 → t.x r = s.x r) ∧ t.halted = s.halted ∧
    (∀ a : Int, t.mem.read a = s.mem.read a)

/-- What LOAD leaves unchanged, executed or skipped: every register but the target and the program
counter, the flags, the halted bit, every word of memory. -/
def Obligations.LoadFrame : Prop :=
  ∀ (s t : State) (cond : Mask) (rt rs1 rs2 : RegIdx) (off : Int),
    exec (.load cond rt rs1 rs2 off) s = .next t →
    (∀ r, r ≠ rt → r ≠ 15 → t.x r = s.x r) ∧ t.flags = s.flags ∧ t.halted = s.halted ∧
    (∀ a : Int, t.mem.read a = s.mem.read a)

/-- What STORE leaves unchanged, executed or skipped: every register but the program counter, the
flags, the halted bit, and every word of memory but the one at the address its meaning computes,
which is the effective address of 45_load_store.md R192, R193. Rests on decision D9 (log 8). -/
def Obligations.StoreFrame : Prop :=
  ∀ (s t : State) (cond : Mask) (rt rs1 rs2 : RegIdx) (off : Int),
    exec (.store cond rt rs1 rs2 off) s = .next t →
    (∀ r, r ≠ 15 → t.x r = s.x r) ∧ t.flags = s.flags ∧ t.halted = s.halted ∧
    storeAddress s rs1 rs2 off = address s rs1 rs2 off ∧
    (∀ a : Int, storeAddress s rs1 rs2 off = a → ∀ b : Int, b ≠ a → t.mem.read b = s.mem.read b) ∧
    (¬ Executes s cond → ∀ b : Int, t.mem.read b = s.mem.read b)

/-- What HALT and NOP leave unchanged, executed or skipped: every register but the program counter,
the flags, every word of memory; NOP, the halted bit too. -/
def Obligations.ControlFrame : Prop :=
  ∀ (s t : State) (cond : Mask) (rt rs1 rs2 : RegIdx) (off : Int),
    (exec (.halt cond rt rs1 rs2 off) s = .next t →
      (∀ r, r ≠ 15 → t.x r = s.x r) ∧ t.flags = s.flags ∧
      (∀ a : Int, t.mem.read a = s.mem.read a)) ∧
    (exec (.nop cond rt rs1 rs2 off) s = .next t →
      (∀ r, r ≠ 15 → t.x r = s.x r) ∧ t.flags = s.flags ∧ t.halted = s.halted ∧
      (∀ a : Int, t.mem.read a = s.mem.read a))

/-- 30_encoding.md R85: HALT and NOP do not depend on `rt`, `rs1`, `rs2` and `off`, and NOP not on
`cond` either. -/
def Obligations.ControlIgnoresUnusedFields : Prop :=
  ∀ (s : State) (c d : Mask) (rt rs1 rs2 ut us1 us2 : RegIdx) (j k : Int),
    exec (.halt c rt rs1 rs2 j) s = exec (.halt c ut us1 us2 k) s ∧
    exec (.nop c rt rs1 rs2 j) s = exec (.nop d ut us1 us2 k) s

/-! ### The cycle -/

/-- 43_sequencer.md R156: where the program counter is an address of the memory, a step is `exec` of
the instruction the word there decodes to, on the same state (nothing is added around it); where it
is not, a step is the `MemFault` of the fetch, with nothing changed (R157). -/
def Obligations.StepRunsDecodedInstruction : Prop :=
  ∀ s : State,
    (0 ≤ s.pc → s.pc < s.mem.size → step s = exec (decode (s.mem.word s.pc.toNat)) s) ∧
    (s.pc < 0 ∨ s.mem.size ≤ s.pc → step s = .fault (.memFault s.pc s))

/-- 43_sequencer.md R172: whatever the word, the flags and the operands, a cycle has a next state or
is a `MemFault`; an instruction that makes no data access always has a next state, an arithmetic
fault included; and a `MemFault` comes only from an access the memory does not answer. -/
def Obligations.OnlyMemFaultStopsACycle : Prop :=
  (∀ s : State, (∃ t, step s = .next t) ∨ (∃ a l, step s = .fault (.memFault a l))) ∧
  (∀ (i : Instr) (s : State), i.op ≠ .load → i.op ≠ .store → ∃ t, exec i s = .next t) ∧
  (∀ (s : State) (a : Int) (l : State), step s = .fault (.memFault a l) → s.mem.read a = none)

/-- 60_exceptions.md R224, R227: when a cycle faults, at which address, and in which state: the fetch
first, with nothing changed; else the data access of an executed LOAD or STORE, with the program
counter advanced. Rests on decisions D9, D10 (logs 8 and 6). -/
def Obligations.WhenACycleFaults : Prop :=
  ∀ (s : State) (a : Int) (l : State),
    step s = .fault (.memFault a l) ↔
      (fetch s = none ∧ a = s.pc ∧ l = s) ∨
      (∃ w, fetch s = some w ∧ Executes s (decode w).cond ∧
        ((decode w).op = .load ∨ (decode w).op = .store) ∧
        a = address s (decode w).rs1 (decode w).rs2 (decode w).off ∧
        (a < 0 ∨ s.mem.size ≤ a) ∧ l = advancePc s)

/-- 10_state.md R27: every cycle adds one word to the program counter, but that an executed ADD, SUB,
MUL, DIV or LOAD with target 15 leaves there the value it commits. The LOAD's address is that of
45_load_store.md R193, so its clause rests on decision D9 (log 8) where the exact sum is out of the
range. -/
def Obligations.ProgramCounterAfterACycle : Prop :=
  ∀ (s t : State) (w : Word), fetch s = some w → step s = .next t →
    (Executes s (decode w).cond ∧ (decode w).rt = 15 ∧ Arithmetic (decode w).op →
      t.pc = (alu (decode w).op (s.x (decode w).rs1) (s.x (decode w).rs2 + (decode w).off)).result) ∧
    (Executes s (decode w).cond ∧ (decode w).rt = 15 ∧ (decode w).op = .load →
      t.pc = (s.mem.word (address s (decode w).rs1 (decode w).rs2 (decode w).off).toNat).toInt) ∧
    (¬ (Executes s (decode w).cond ∧ (decode w).rt = 15 ∧
        (Arithmetic (decode w).op ∨ (decode w).op = .load)) →
      AdvancedByOne s t ∧ (¬ Arithmetic (decode w).op → t.flags = s.flags))

/-- 10_state.md R28: the increment has no range check: at the top of the range it wraps to −2^31, for
every instruction, executed or skipped, that commits nothing to register 15. The wrap is the spec's
decision D8 (log 12). -/
def Obligations.ProgramCounterWrapsAtTheTop : Prop :=
  ∀ (i : Instr) (s t : State), exec i s = .next t → s.pc = 2147483647 →
    ¬ (Executes s i.cond ∧ i.rt = 15 ∧ (Arithmetic i.op ∨ i.op = .load)) →
    t.pc = -2147483648

/-- 10_state.md R30: the flags after a cycle are the ALU's flag if the instruction is an executed
ADD, SUB, MUL or DIV, whatever its target, and as before otherwise; neither the host's `put` nor
`run` writes them. -/
def Obligations.FlagsWrittenOnlyByArithmetic : Prop :=
  (∀ (s t : State) (w : Word), fetch s = some w → step s = .next t →
    (Arithmetic (decode w).op ∧ Executes s (decode w).cond →
      t.flags = (alu (decode w).op (s.x (decode w).rs1)
        (s.x (decode w).rs2 + (decode w).off)).flag.mask) ∧
    (¬ (Arithmetic (decode w).op ∧ Executes s (decode w).cond) → t.flags = s.flags)) ∧
  (∀ (s : State) (i : RegIdx) (v : Int), (hostPut s i v).flags = s.flags) ∧
  (∀ (s : State) (start : Int), (launch start s).flags = s.flags)

/-- 10_state.md R31: only the predicate test reads the flags: with any other flags that pass or fail
the test alike, an instruction has the same outcome, flags apart; no flag reaches a register or a
word of memory. -/
def Obligations.FlagsReadOnlyByThePredicate : Prop :=
  ∀ (i : Instr) (s : State) (f : Mask), (s.flags &&& i.cond = 0#4 ↔ f &&& i.cond = 0#4) →
    SameButFlags (exec i s) (exec i (s.withFlags f))

/-- 10_state.md R33: the halted bit becomes true only by an executed HALT, and false only by reset
and `run`; a fault does not set it; a step does not read it, and `run`'s loop does. -/
def Obligations.HaltedBitRule : Prop :=
  (∀ (s t : State) (w : Word), fetch s = some w → step s = .next t →
    (t.halted = true ↔
      s.halted = true ∨ ((decode w).op = .halt ∧ Executes s (decode w).cond))) ∧
  (∀ (s : State) (a : Int) (l : State), step s = .fault (.memFault a l) → l.halted = s.halted) ∧
  State.reset.halted = false ∧
  (∀ (s : State) (start : Int), (launch start s).halted = false) ∧
  (∀ (s : State) (b : Bool), SameButHalted (step s) (step (s.withHalted b))) ∧
  (∀ (s : State) (fuel : Nat), s.halted = true → runLoop fuel s = .finished s)

/-- 20_memory.md R53: a cycle changes a word of memory only where an executed STORE stores it, at the
effective address of 45_load_store.md R193; no cycle changes the size of the memory. Rests on decision
D9 (log 8) where the exact sum is out of the range. -/
def Obligations.MemoryWrittenOnlyByStore : Prop :=
  ∀ (s t : State) (w : Word), fetch s = some w → step s = .next t →
    t.mem.size = s.mem.size ∧
    ∀ a : Nat, t.mem.word a ≠ s.mem.word a →
      (decode w).op = .store ∧ Executes s (decode w).cond ∧
      (a : Int) = address s (decode w).rs1 (decode w).rs2 (decode w).off

/-- 20_memory.md R64: the next fetch from the address of an executed STORE gets the stored word, with
nothing more to do. The stored value of register 15 is decision D13 (log 14), and the address rests on
45_load_store.md R193, decision D9 (log 8). -/
def Obligations.StoreIsSeenByTheNextFetch : Prop :=
  ∀ (s t u : State) (cond : Mask) (rt rs1 rs2 : RegIdx) (off : Int), Executes s cond →
    exec (.store cond rt rs1 rs2 off) s = .next t → u.mem = t.mem →
    u.pc = address s rs1 rs2 off →
    ∃ w, fetch u = some w ∧ w.toInt = (if rt = 15 then nextPc s else s.x rt) ∧
      step u = exec (decode w) u

/-- 43_sequencer.md R159: which predicates pass: NEVER never, ALWAYS whenever a flag is set, and under
a single flag exactly the masks that hold its bit. The bit values are decision D5 (log 10). -/
def Obligations.PredicateTest : Prop :=
  ∀ f c : Mask,
    (satisfied f c = true ↔ f &&& c ≠ 0#4) ∧
    satisfied f 0#4 = false ∧
    (satisfied f 15#4 = true ↔ f ≠ 0#4) ∧
    (satisfied 15#4 c = true ↔ c ≠ 0#4) ∧
    (satisfied 1#4 c = c.getLsbD 0) ∧ (satisfied 2#4 c = c.getLsbD 1) ∧
    (satisfied 4#4 c = c.getLsbD 2) ∧ (satisfied 8#4 c = c.getLsbD 3)

/-- 43_sequencer.md R158: the event of a cycle carries the fetch address, the raw word and the decoded
instruction, and depends neither on the flags nor on the halted bit; a faulting fetch emits none. That
the event is a function of the state is decision D18 (log 16). -/
def Obligations.ObservationEvent : Prop :=
  ∀ s : State,
    (∀ w, fetch s = some w → observe s = some { address := s.pc, word := w, instr := decode w }) ∧
    (fetch s = none → observe s = none) ∧
    (∀ f b, observe ((s.withFlags f).withHalted b) = observe s)

/-! ### Memory -/

/-- 20_memory.md R52: outside the memory neither a read nor a write has a value; inside, a write
succeeds, the word reads back, every other address reads as before, and the size and the canonical
form stay. Rests on decision D10 (log 6). -/
def Obligations.MemoryReadAfterWrite : Prop :=
  ∀ (m : Memory) (a : Int) (w : Word),
    (a < 0 ∨ m.size ≤ a → m.read a = none ∧ m.write a w = none) ∧
    (0 ≤ a → a < m.size →
      ∃ m', m.write a w = some m' ∧ m'.read a = some w ∧ m'.size = m.size ∧
        (∀ b : Int, b ≠ a → m'.read b = m.read b) ∧ (m.wf → m'.wf))

/-- Two memories in canonical form with the same size that read alike everywhere are the same data
(the model's own form of memory, log 1). -/
def Obligations.CanonicalMemoriesReadingAlikeAreEqual : Prop :=
  ∀ m m' : Memory, m.wf → m'.wf → m.size = m'.size → (∀ a : Int, m.read a = m'.read a) → m = m'

/-! ### Invariants and reset -/

/-- Every cycle keeps the invariant: the memory canonical and of a size the spec allows (20_memory.md
R52), register 0's slot 0 (10_state.md R22), `flags` one of 15, 1, 2, 4, 8 (10_state.md R32); so does
the state at a fault. -/
def Obligations.StepKeepsTheInvariant : Prop :=
  ∀ s : State, s.inv →
    (∀ t, step s = .next t → t.inv) ∧
    (∀ a l, step s = .fault (.memFault a l) → l.inv)

/-- What the host may do between cycles keeps the invariant: a register write, a memory write inside
the memory, a launch (70_reset_and_hazards.md R257). -/
def Obligations.HostActionsKeepTheInvariant : Prop :=
  ∀ s : State, s.inv →
    (∀ i v, (hostPut s i v).inv) ∧
    (∀ a v t, hostWriteMem s a v = some t → t.inv) ∧
    (∀ start, (launch start s).inv)

/-- The invariant holds after reset, and after the construction of a core over any memory in
canonical form (70_reset_and_hazards.md R250). -/
def Obligations.ResetMeetsTheInvariant : Prop :=
  State.reset.inv ∧ ∀ m : Memory, m.wf → (State.construct m).inv

/-- 10_state.md R38: every register reads 0 after reset, `flags` is ALWAYS and the core is not
halted, whatever memory it is connected to. The zeros of registers 1 to 15 are decision D11 (log 4);
the reset memory is the model's choice (logs 2 and 3). -/
def Obligations.ResetState : Prop :=
  (∀ (m : Memory) (r : RegIdx), (State.construct m).x r = 0) ∧
  (∀ m : Memory, (State.construct m).flags = 15#4 ∧ (State.construct m).halted = false ∧
    (State.construct m).mem = m) ∧
  State.reset = State.construct { size := 512, cells := [] }

/-- 10_state.md R32: after an executed arithmetic instruction `flags` is exactly one of M, Z, P, V,
and it stays so in every state that follows. -/
def Obligations.OneFlagForEverAfterArithmetic : Prop :=
  (∀ (i : Instr) (s t : State), Arithmetic i.op → Executes s i.cond → exec i s = .next t →
    t.flags = 1#4 ∨ t.flags = 2#4 ∨ t.flags = 4#4 ∨ t.flags = 8#4) ∧
  (∀ s t : State, Reaches s t →
    (s.flags = 1#4 ∨ s.flags = 2#4 ∨ s.flags = 4#4 ∨ s.flags = 8#4) →
    (t.flags = 1#4 ∨ t.flags = 2#4 ∨ t.flags = 4#4 ∨ t.flags = 8#4))

/-- The invariant holds in every state a run can reach from any launch over a canonical memory, and
the memory keeps its size there. -/
def Obligations.ReachableStatesMeetTheInvariant : Prop :=
  ∀ (m : Memory) (start : Int) (t : State), m.wf →
    Reaches (launch start (State.construct m)) t → t.inv ∧ t.mem.size = m.size

/-! ### The host's side -/

/-- 70_reset_and_hazards.md R252: `run` begins by clearing the halted bit and setting the program
counter, and changes nothing else. Any start in the range is decision D21. -/
def Obligations.LaunchSetsPcAndClearsHalted : Prop :=
  ∀ (s : State) (start : Int), -2147483648 ≤ start → start ≤ 2147483647 →
    (launch start s).pc = start ∧ (launch start s).halted = false ∧
    (∀ r, r ≠ 15 → (launch start s).x r = s.x r) ∧
    (launch start s).flags = s.flags ∧ (launch start s).mem = s.mem

/-- 43_sequencer.md R168, R171: a run that finishes has halted, in a state its steps reach; more fuel
gives the same end; a run that has not finished is still not halted. The fuel is the model's (log
18). -/
def Obligations.RunEndsOnlyWhenHalted : Prop :=
  ∀ (s t : State) (start : Int) (fuel : Nat),
    (run fuel start s = .finished t →
      t.halted = true ∧ Reaches (launch start s) t ∧
      ∀ more, fuel ≤ more → run more start s = .finished t) ∧
    (run fuel start s = .outOfFuel t → t.halted = false ∧ Reaches (launch start s) t)

/-- 46_control.md R208: a cycle that executes a HALT leaves the halted bit true and the program
counter after the HALT, and `run` makes no further step from there. -/
def Obligations.HaltIsTerminalForRun : Prop :=
  ∀ (s : State) (w : Word) (fuel : Nat), fetch s = some w → (decode w).op = .halt →
    Executes s (decode w).cond →
    ∃ t, step s = .next t ∧ t.halted = true ∧ t.x 15 = nextPc s ∧
      runLoop fuel t = .finished t ∧ (s.halted = false → runLoop (fuel + 1) s = .finished t)

/-- 70_reset_and_hazards.md R257: between cycles the host's write of a memory word reads back, changes
no other word and no state of the core; outside the memory neither access has a value. Rests on
decisions D4, D10 (logs 11 and 6). -/
def Obligations.HostMemoryAccess : Prop :=
  ∀ (s : State) (a v : Int), -2147483648 ≤ v → v ≤ 2147483647 →
    (a < 0 ∨ s.mem.size ≤ a → hostReadMem s a = none ∧ hostWriteMem s a v = none) ∧
    (0 ≤ a → a < s.mem.size →
      ∃ t, hostWriteMem s a v = some t ∧ hostReadMem t a = some v ∧
        (∀ b, b ≠ a → hostReadMem t b = hostReadMem s b) ∧
        t.regs = s.regs ∧ t.flags = s.flags ∧ t.halted = s.halted)

/-- A program word placed where the next step fetches is what the next step runs (how a program comes
to run, log 5), and nothing else of the state has changed where the program counter is an address of
the memory. -/
def Obligations.PlacedWordIsRunNext : Prop :=
  ∀ (s : State) (n : Nat), 0 < s.mem.size →
    step (s.withFetchWord 32 n) = exec (decode (BitVec.ofNat 32 n)) (s.withFetchWord 32 n) ∧
    (0 ≤ s.pc → s.pc < s.mem.size →
      (s.withFetchWord 32 n).regs = s.regs ∧ (s.withFetchWord 32 n).flags = s.flags ∧
      (s.withFetchWord 32 n).halted = s.halted ∧
      ∀ a : Int, a ≠ s.pc → (s.withFetchWord 32 n).mem.read a = s.mem.read a)
end

