-- ==== Sys2Proof/Laws/Alu.lean ====
section
/-! SUPPORT. What the ALU answers (41_alu.md R122, R124). -/

namespace Sys2Proof.Machine

/-- A division by zero answers 0 and V. -/
theorem alu_of_none {op : Op} {a b : Int} (h : exactValue op a b = none) :
    alu op a b = { result := 0, flag := .overflow } := by
  simp [alu, h, aluOfExact]

/-- An exact value in the range is the answer, with its sign. -/
theorem alu_of_inRange {op : Op} {a b e : Int} (h : exactValue op a b = some e) (hr : inRange e) :
    alu op a b = { result := e, flag := classify e } := by
  simp only [alu, h, aluOfExact, if_pos hr]

/-- An exact value outside the range answers 0 and V. -/
theorem alu_of_not_inRange {op : Op} {a b e : Int} (h : exactValue op a b = some e)
    (hr : ¬ inRange e) : alu op a b = { result := 0, flag := .overflow } := by
  simp only [alu, h, aluOfExact, if_neg hr]

/-- The three ways an ALU call can go. -/
theorem alu_cases (op : Op) (a b : Int) :
    (exactValue op a b = none ∧ alu op a b = { result := 0, flag := .overflow }) ∨
    (∃ e, exactValue op a b = some e ∧ ¬ inRange e ∧
      alu op a b = { result := 0, flag := .overflow }) ∨
    (∃ e, exactValue op a b = some e ∧ inRange e ∧ alu op a b = { result := e, flag := classify e }) := by
  cases h : exactValue op a b with
  | none => exact .inl ⟨rfl, alu_of_none h⟩
  | some e =>
    by_cases hr : inRange e
    · exact .inr (.inr ⟨e, rfl, hr, alu_of_inRange h hr⟩)
    · exact .inr (.inl ⟨e, rfl, hr, alu_of_not_inRange h hr⟩)

/-- Whatever the operands, the result lies in the range of a register. -/
theorem alu_result_inRange (op : Op) (a b : Int) : inRange (alu op a b).result := by
  rcases alu_cases op a b with ⟨_, h⟩ | ⟨_, _, _, h⟩ | ⟨_, _, hr, h⟩ <;> rw [h]
  · decide
  · decide
  · exact hr

/-- The flag V comes with the result 0. -/
theorem alu_result_of_overflow {op : Op} {a b : Int} (h : (alu op a b).flag = .overflow) :
    (alu op a b).result = 0 := by
  rcases alu_cases op a b with ⟨_, e⟩ | ⟨_, _, _, e⟩ | ⟨v, _, hr, e⟩ <;> rw [e] at h ⊢
  have hv : classify v ≠ .overflow := by
    unfold classify
    split
    · simp
    · split <;> simp
  exact absurd h hv

theorem classify_neg {e : Int} (h : e < 0) : classify e = .minus := if_pos h

theorem classify_zero : classify 0 = .zero := rfl

theorem classify_pos {e : Int} (h : 0 < e) : classify e = .positive := by
  unfold classify
  rw [if_neg (by omega), if_neg (by omega)]

theorem classify_ne_overflow (e : Int) : classify e ≠ .overflow := by
  unfold classify
  split
  · simp
  · split <;> simp

/-- The mask of a condition is one bit. -/
theorem aluFlag_mask_cases (f : AluFlag) :
    f.mask = 1#4 ∨ f.mask = 2#4 ∨ f.mask = 4#4 ∨ f.mask = 8#4 := by
  cases f <;> simp [AluFlag.mask]

/-! ### Floor division -/

/-- The floor quotient leaves a remainder with the divisor's sign and smaller than it. -/
theorem fdiv_remainder (a b : Int) :
    a = a.fdiv b * b + a.fmod b ∧ (0 < b → 0 ≤ a.fmod b ∧ a.fmod b < b) ∧
      (b < 0 → b < a.fmod b ∧ a.fmod b ≤ 0) := by
  refine ⟨?_, fun h => ⟨Int.fmod_nonneg_of_pos a h, Int.fmod_lt_of_pos a h⟩, fun h => ?_⟩
  · have := Int.mul_fdiv_add_fmod a b
    rw [mul_comm] at this
    exact this.symm
  · have lo := Int.fmod_nonneg_of_pos (-a) (b := -b) (by omega)
    have hi := Int.fmod_lt_of_pos (-a) (b := -b) (by omega)
    rw [Int.neg_fmod_neg] at lo hi
    omega

/-- The floor quotient is the floor of the rational quotient. -/
theorem floor_div_eq_fdiv (a : Int) {b : Int} (hb : b ≠ 0) : ⌊(a : ℚ) / (b : ℚ)⌋ = a.fdiv b := by
  obtain ⟨ha, hp, hn⟩ := fdiv_remainder a b
  generalize a.fmod b = r at ha hp hn
  have hq : (a : ℚ) = a.fdiv b * b + r := by exact_mod_cast ha
  rw [Int.floor_eq_iff]
  rcases lt_or_gt_of_ne hb with h | h
  · have hbq : (b : ℚ) < 0 := by exact_mod_cast h
    have lo : (b : ℚ) < r := by exact_mod_cast (hn h).1
    have hi : (r : ℚ) ≤ 0 := by exact_mod_cast (hn h).2
    rw [le_div_iff_of_neg hbq, div_lt_iff_of_neg hbq]
    constructor <;> nlinarith
  · have hbq : (0 : ℚ) < b := by exact_mod_cast h
    have lo : (0 : ℚ) ≤ r := by exact_mod_cast (hp h).1
    have hi : (r : ℚ) < b := by exact_mod_cast (hp h).2
    rw [le_div_iff₀ hbq, div_lt_iff₀ hbq]
    constructor <;> nlinarith

/-! ### Addresses -/

/-- The two operations that compute an address compute the same one. -/
theorem storeAddress_eq_loadAddress (s : State) (rs1 rs2 : RegIdx) (off : Int) :
    storeAddress s rs1 rs2 off = loadAddress s rs1 rs2 off := rfl

end Sys2Proof.Machine
end

