-- ==== Sys2Proof/Laws/Decode.lean ====
section
/-! SUPPORT. The fields of a word laid out from its fields, and the same as arithmetic. -/

namespace Sys2Proof

/-! ### A field read from a word laid out from its fields -/

section Fields
variable (opf : BitVec 5) (cond : Mask) (rt rs1 rs2 : RegIdx) (off : BitVec 10)

@[simp] theorem opfField_wordOfFields : opfField (wordOfFields opf cond rt rs1 rs2 off) = opf := by
  unfold opfField wordOfFields
  repeat rw [BitVec.extractLsb'_append_eq_of_add_le (by decide)]
  rw [BitVec.extractLsb'_append_eq_of_le (by decide)]
  simp

@[simp] theorem condField_wordOfFields : condField (wordOfFields opf cond rt rs1 rs2 off) = cond := by
  unfold condField wordOfFields
  repeat rw [BitVec.extractLsb'_append_eq_of_add_le (by decide)]
  rw [BitVec.extractLsb'_append_eq_of_le (by decide)]
  simp

@[simp] theorem rtField_wordOfFields : rtField (wordOfFields opf cond rt rs1 rs2 off) = rt := by
  unfold rtField wordOfFields
  repeat rw [BitVec.extractLsb'_append_eq_of_add_le (by decide)]
  rw [BitVec.extractLsb'_append_eq_of_le (by decide)]
  simp

@[simp] theorem rs1Field_wordOfFields : rs1Field (wordOfFields opf cond rt rs1 rs2 off) = rs1 := by
  unfold rs1Field wordOfFields
  repeat rw [BitVec.extractLsb'_append_eq_of_add_le (by decide)]
  rw [BitVec.extractLsb'_append_eq_of_le (by decide)]
  simp

@[simp] theorem rs2Field_wordOfFields : rs2Field (wordOfFields opf cond rt rs1 rs2 off) = rs2 := by
  unfold rs2Field wordOfFields
  repeat rw [BitVec.extractLsb'_append_eq_of_add_le (by decide)]
  rw [BitVec.extractLsb'_append_eq_of_le (by decide)]
  simp

@[simp] theorem offField_wordOfFields :
    offField (wordOfFields opf cond rt rs1 rs2 off) = off.toInt := by
  unfold offField wordOfFields
  repeat rw [BitVec.extractLsb'_append_eq_of_add_le (by decide)]
  simp

theorem toNat_append_sum {m n : Nat} (x : BitVec m) (y : BitVec n) :
    (x ++ y).toNat = x.toNat * 2 ^ n + y.toNat := by
  rw [BitVec.toNat_append, ← Nat.shiftLeft_add_eq_or_of_lt y.isLt, Nat.shiftLeft_eq]

/-- The word as a sum of its shifted fields (30_encoding.md R81). -/
theorem wordOfFields_toNat : (wordOfFields opf cond rt rs1 rs2 off).toNat =
    opf.toNat * 2 ^ 26 + cond.toNat * 2 ^ 22 + rt.val * 2 ^ 18 + rs1.val * 2 ^ 14 +
      rs2.val * 2 ^ 10 + off.toNat := by
  unfold wordOfFields
  iterate 6 rw [toNat_append_sum]
  simp only [BitVec.toNat_ofFin, BitVec.toNat_ofNat]
  omega

end Fields

/-! ### The fields of a word as arithmetic on its number -/

theorem opfField_toNat (w : Word) : (opfField w).toNat = w.toNat / 2 ^ 26 % 2 ^ 5 := by
  simp [opfField, Nat.shiftRight_eq_div_pow]

theorem condField_toNat (w : Word) : (condField w).toNat = w.toNat / 2 ^ 22 % 2 ^ 4 := by
  simp [condField, Nat.shiftRight_eq_div_pow]

theorem rtField_val (w : Word) : (rtField w).val = w.toNat / 2 ^ 18 % 2 ^ 4 := by
  simp [rtField, Nat.shiftRight_eq_div_pow]

theorem rs1Field_val (w : Word) : (rs1Field w).val = w.toNat / 2 ^ 14 % 2 ^ 4 := by
  simp [rs1Field, Nat.shiftRight_eq_div_pow]

theorem rs2Field_val (w : Word) : (rs2Field w).val = w.toNat / 2 ^ 10 % 2 ^ 4 := by
  simp [rs2Field, Nat.shiftRight_eq_div_pow]

/-- The offset as 30_encoding.md R77 gives it. -/
theorem offField_eq (w : Word) : offField w =
    if w.toNat % 1024 < 512 then ((w.toNat % 1024 : Nat) : Int)
    else ((w.toNat % 1024 : Nat) : Int) - 1024 := by
  rw [offField, BitVec.toInt_eq_toNat_cond]
  simp only [BitVec.extractLsb'_toNat, Nat.shiftRight_zero]
  norm_num
  split <;> split <;> omega

/-- A ten-bit offset lies in −512 to 511. -/
theorem offField_bounds (w : Word) : -512 ≤ offField w ∧ offField w ≤ 511 := by
  rw [offField_eq]
  split <;> omega

/-- An offset in −512 to 511 survives its ten bits. -/
theorem toInt_ofInt_off {k : Int} (lo : -512 ≤ k) (hi : k ≤ 511) : (BitVec.ofInt 10 k).toInt = k := by
  rw [BitVec.toInt_ofInt]
  exact Int.bmod_eq_of_le (by norm_num; omega) (by norm_num; omega)

/-! ### The opcode map -/

@[simp] theorem opOfCode_codeOfOp (op : Op) : opOfCode (codeOfOp op) = op := by cases op <;> rfl

theorem opOfCode_of_ge {opf : BitVec 5} (h : 8 ≤ opf.toNat) : opOfCode opf = .nop := by
  unfold opOfCode
  split <;> first | omega | rfl

/-! ### The record and its fields -/

section Record
variable (o : Op) (c : Mask) (rt rs1 rs2 : RegIdx) (k : Int)

@[simp] theorem ofFields_op : (Instr.ofFields o c rt rs1 rs2 k).op = o := by cases o <;> rfl
@[simp] theorem ofFields_cond : (Instr.ofFields o c rt rs1 rs2 k).cond = c := by cases o <;> rfl
@[simp] theorem ofFields_rt : (Instr.ofFields o c rt rs1 rs2 k).rt = rt := by cases o <;> rfl
@[simp] theorem ofFields_rs1 : (Instr.ofFields o c rt rs1 rs2 k).rs1 = rs1 := by cases o <;> rfl
@[simp] theorem ofFields_rs2 : (Instr.ofFields o c rt rs1 rs2 k).rs2 = rs2 := by cases o <;> rfl
@[simp] theorem ofFields_off : (Instr.ofFields o c rt rs1 rs2 k).off = k := by cases o <;> rfl

end Record

end Sys2Proof
end

