-- ==== Sys2Proof/Laws/State.lean ====
section
/-! SUPPORT. One lemma per field per update of the state, so that no proof unfolds a record update. -/

namespace Sys2Proof.Machine

@[simp] theorem withRegs_regs (s : State) (r) : (s.withRegs r).regs = r := rfl
@[simp] theorem withRegs_flags (s : State) (r) : (s.withRegs r).flags = s.flags := rfl
@[simp] theorem withRegs_halted (s : State) (r) : (s.withRegs r).halted = s.halted := rfl
@[simp] theorem withRegs_mem (s : State) (r) : (s.withRegs r).mem = s.mem := rfl

@[simp] theorem withFlags_regs (s : State) (f) : (s.withFlags f).regs = s.regs := rfl
@[simp] theorem withFlags_flags (s : State) (f) : (s.withFlags f).flags = f := rfl
@[simp] theorem withFlags_halted (s : State) (f) : (s.withFlags f).halted = s.halted := rfl
@[simp] theorem withFlags_mem (s : State) (f) : (s.withFlags f).mem = s.mem := rfl

@[simp] theorem withHalted_regs (s : State) (b) : (s.withHalted b).regs = s.regs := rfl
@[simp] theorem withHalted_flags (s : State) (b) : (s.withHalted b).flags = s.flags := rfl
@[simp] theorem withHalted_halted (s : State) (b) : (s.withHalted b).halted = b := rfl
@[simp] theorem withHalted_mem (s : State) (b) : (s.withHalted b).mem = s.mem := rfl

@[simp] theorem withMem_regs (s : State) (m) : (s.withMem m).regs = s.regs := rfl
@[simp] theorem withMem_flags (s : State) (m) : (s.withMem m).flags = s.flags := rfl
@[simp] theorem withMem_halted (s : State) (m) : (s.withMem m).halted = s.halted := rfl
@[simp] theorem withMem_mem (s : State) (m) : (s.withMem m).mem = m := rfl

/-- Two states are equal when their four fields are. -/
theorem state_ext {s t : State} (hr : s.regs = t.regs) (hf : s.flags = t.flags)
    (hh : s.halted = t.halted) (hm : s.mem = t.mem) : s = t := by
  cases s; cases t; simp_all

end Sys2Proof.Machine
end

