-- ==== Sys2Proof/Laws/Memory.lean ====
section
/-! SUPPORT. What the memory operations do (20_memory.md R52), and that each keeps the canonical
form. -/

namespace Sys2Proof.Machine

/-! ### Lookup after an update -/

theorem lookup_erase_same (l : List (Nat × Word)) (a : Nat) :
    Memory.lookup (Memory.erase l a) a = Config.blankWord := by
  unfold Memory.erase
  induction l with
  | nil => rfl
  | cons c rest ih =>
    by_cases h : c.1 = a
    · simpa [List.filter, h] using ih
    · simpa [List.filter, h, Memory.lookup] using ih

theorem lookup_erase_other (l : List (Nat × Word)) {a b : Nat} (h : b ≠ a) :
    Memory.lookup (Memory.erase l a) b = Memory.lookup l b := by
  unfold Memory.erase
  induction l with
  | nil => rfl
  | cons c rest ih =>
    by_cases hc : c.1 = a
    · have : a ≠ b := fun e => h e.symm
      simpa [List.filter, hc, Memory.lookup, this] using ih
    · by_cases hb : c.1 = b <;> simp [List.filter, hc, Memory.lookup, hb, ← ih, h]

theorem lookup_place_same (l : List (Nat × Word)) (a : Nat) (w : Word) (h : ∀ c ∈ l, c.1 ≠ a) :
    Memory.lookup (Memory.place a w l) a = w := by
  induction l with
  | nil => simp [Memory.place, Memory.lookup]
  | cons c rest ih =>
    have hc := h c (by simp)
    have ih := ih (fun d hd => h d (by simp [hd]))
    unfold Memory.place
    split <;> simp [Memory.lookup, hc, ih]

theorem lookup_place_other (l : List (Nat × Word)) {a b : Nat} (w : Word) (h : b ≠ a) :
    Memory.lookup (Memory.place a w l) b = Memory.lookup l b := by
  have h' : a ≠ b := fun e => h e.symm
  induction l with
  | nil => simp [Memory.place, Memory.lookup, h']
  | cons c rest ih =>
    unfold Memory.place
    split <;> simp [Memory.lookup, h', ih]

theorem mem_erase {l : List (Nat × Word)} {a : Nat} {c : Nat × Word} :
    c ∈ Memory.erase l a ↔ c ∈ l ∧ c.1 ≠ a := by
  simp [Memory.erase]

theorem mem_place {l : List (Nat × Word)} {a : Nat} {w : Word} {c : Nat × Word} :
    c ∈ Memory.place a w l ↔ c = (a, w) ∨ c ∈ l := by
  induction l with
  | nil => simp [Memory.place]
  | cons d rest ih =>
    unfold Memory.place
    split
    · simp
    · simp only [List.mem_cons, ih]
      tauto

/-- The stored word is read back. -/
theorem lookup_update_same (l : List (Nat × Word)) (a : Nat) (w : Word) :
    Memory.lookup (Memory.update l a w) a = w := by
  unfold Memory.update
  split
  · next h => rw [lookup_erase_same, h]
  · exact lookup_place_same _ _ _ (fun _ hc => (mem_erase.mp hc).2)

/-- Every other address reads as before. -/
theorem lookup_update_other (l : List (Nat × Word)) {a b : Nat} (w : Word) (h : b ≠ a) :
    Memory.lookup (Memory.update l a w) b = Memory.lookup l b := by
  unfold Memory.update
  split
  · exact lookup_erase_other l h
  · rw [lookup_place_other _ w h, lookup_erase_other l h]

/-! ### The canonical form -/

theorem pairwise_erase {l : List (Nat × Word)} (a : Nat) (h : l.Pairwise (fun c d => c.1 < d.1)) :
    (Memory.erase l a).Pairwise (fun c d => c.1 < d.1) := h.filter _

theorem pairwise_place {l : List (Nat × Word)} {a : Nat} (w : Word) (ha : ∀ c ∈ l, c.1 ≠ a)
    (h : l.Pairwise (fun c d => c.1 < d.1)) :
    (Memory.place a w l).Pairwise (fun c d => c.1 < d.1) := by
  induction l with
  | nil => simp [Memory.place]
  | cons c rest ih =>
    obtain ⟨hc, hrest⟩ := List.pairwise_cons.mp h
    have hca := ha c (by simp)
    unfold Memory.place
    split
    · next lt =>
      refine List.pairwise_cons.mpr ⟨fun d hd => ?_, h⟩
      rcases List.mem_cons.mp hd with rfl | hd
      · exact lt
      · exact lt_trans lt (hc d hd)
    · next nlt =>
      refine List.pairwise_cons.mpr ⟨fun d hd => ?_, ih (fun d hd => ha d (by simp [hd])) hrest⟩
      rcases mem_place.mp hd with rfl | hd
      · exact lt_of_le_of_ne (Nat.le_of_not_lt nlt) hca
      · exact hc d hd

/-- A stored word at an address of the memory keeps the canonical form. -/
theorem wf_update {m : Memory} (h : m.wf) {a : Nat} (w : Word) (ha : a < m.size) :
    Memory.wf { m with cells := Memory.update m.cells a w } := by
  obtain ⟨hsize, hsorted, hcells⟩ := h
  have erased : ∀ c ∈ Memory.erase m.cells a, c.1 < m.size ∧ c.2 ≠ Config.blankWord :=
    fun c hc => hcells c (mem_erase.mp hc).1
  refine ⟨hsize, ?_, ?_⟩
  · unfold Memory.update
    split
    · exact pairwise_erase a hsorted
    · exact pairwise_place w (fun _ hc => (mem_erase.mp hc).2) (pairwise_erase a hsorted)
  · intro c hc
    unfold Memory.update at hc
    split at hc
    · exact erased c hc
    · next hw =>
      rcases mem_place.mp hc with rfl | hc
      · exact ⟨ha, hw⟩
      · exact erased c hc

/-! ### Read and write -/

theorem read_of_has {m : Memory} {addr : Int} (h : m.has addr) :
    m.read addr = some (m.word addr.toNat) := if_pos h

theorem read_of_not_has {m : Memory} {addr : Int} (h : ¬ m.has addr) : m.read addr = none := if_neg h

/-- All that a successful write does. -/
theorem write_some {m m' : Memory} {addr : Int} {w : Word} (h : m.write addr w = some m') :
    m.has addr ∧ m'.size = m.size ∧ m'.word addr.toNat = w ∧
      (∀ b, b ≠ addr.toNat → m'.word b = m.word b) ∧ (m.wf → m'.wf) := by
  unfold Memory.write at h
  split at h
  · next hv =>
    obtain rfl := Option.some.inj h
    exact ⟨hv, rfl, lookup_update_same .., fun _ hb => lookup_update_other _ _ hb,
      fun hw => wf_update hw w (by have := hv.1; have := hv.2; omega)⟩
  · exact absurd h (by simp)

theorem write_of_not_has {m : Memory} {addr : Int} (w : Word) (h : ¬ m.has addr) :
    m.write addr w = none := if_neg h

theorem write_of_has {m : Memory} {addr : Int} (w : Word) (h : m.has addr) :
    ∃ m', m.write addr w = some m' := ⟨_, if_pos h⟩

/-- A successful write leaves every other address's read as before. -/
theorem read_of_write_other {m m' : Memory} {addr : Int} {w : Word} (h : m.write addr w = some m')
    {b : Int} (hb : b ≠ addr) : m'.read b = m.read b := by
  obtain ⟨hv, hsize, -, hother, -⟩ := write_some h
  unfold Memory.read Memory.has
  rw [hsize]
  split
  · rw [hother _ (by have := hv.1; omega)]
  · rfl

theorem not_has_iff {m : Memory} {addr : Int} : ¬ m.has addr ↔ addr < 0 ∨ m.size ≤ addr := by
  unfold Memory.has
  omega

/-- The reset memory has the canonical form. -/
theorem reset_mem_wf : State.reset.mem.wf := by decide

end Sys2Proof.Machine
end

