-- ==== Sys2Proof/Laws/Registers.lean ====
section
/-! SUPPORT. What a register read and a register write do (42_regfile.md R141, R142, R144), and the
increment of the program counter. -/

namespace Sys2Proof.Machine

/-! ### The fields a register write leaves alone -/

@[simp] theorem writeReg_flags (s : State) (i w) : (writeReg s i w).flags = s.flags := by
  unfold writeReg; split <;> rfl

@[simp] theorem writeReg_halted (s : State) (i w) : (writeReg s i w).halted = s.halted := by
  unfold writeReg; split <;> rfl

@[simp] theorem writeReg_mem (s : State) (i w) : (writeReg s i w).mem = s.mem := by
  unfold writeReg; split <;> rfl

@[simp] theorem writeReg_zero (s : State) (w) : writeReg s 0 w = s := rfl

/-- No write reaches the slot of register 0. -/
@[simp] theorem writeReg_slot0 (s : State) (i w) : (writeReg s i w).regs[0] = s.regs[0] := by
  unfold writeReg
  split
  · rfl
  · next h =>
    have : i.val ≠ 0 := fun e => h (Fin.ext e)
    exact Vector.getElem_set_ne i.isLt (by decide) this

/-! ### Reads -/

@[simp] theorem readReg_zero (s : State) : readReg s 0 = 0#32 := rfl

@[simp] theorem readReg_withFlags (s : State) (f i) : readReg (s.withFlags f) i = readReg s i := rfl
@[simp] theorem readReg_withHalted (s : State) (b i) : readReg (s.withHalted b) i = readReg s i := rfl
@[simp] theorem readReg_withMem (s : State) (m i) : readReg (s.withMem m) i = readReg s i := rfl

/-- A register read sees the register file and nothing else. -/
theorem readReg_congr {s t : State} (h : s.regs = t.regs) (i) : readReg s i = readReg t i := by
  simp [readReg, h]

/-- A written register reads back, but for register 0. -/
theorem readReg_writeReg_same (s : State) {i} (w) (h : i ≠ 0) : readReg (writeReg s i w) i = w := by
  simp [readReg, writeReg, h]

/-- A write leaves every other register. -/
theorem readReg_writeReg_other (s : State) {i j} (w) (h : j ≠ i) :
    readReg (writeReg s i w) j = readReg s j := by
  unfold readReg writeReg
  split
  · rfl
  · split
    · rfl
    · exact Vector.getElem_set_ne i.isLt j.isLt (fun e => h (Fin.ext e.symm))

/-! ### Signed readings -/

theorem bits32_signed32 (p : Word) : bits32 (signed32 p) = p := BitVec.ofInt_toInt

/-- A narrowed in-range integer reads back as itself. -/
theorem signed32_bits32 {v : Int} (lo : -2147483648 ≤ v) (hi : v ≤ 2147483647) :
    signed32 (bits32 v) = v := by
  unfold signed32 bits32
  rw [BitVec.toInt_ofInt]
  exact Int.bmod_eq_of_le (by norm_num; omega) (by norm_num; omega)

/-- A signed reading lies in the 32-bit range. -/
theorem signed32_bounds (p : Word) : -2147483648 ≤ signed32 p ∧ signed32 p ≤ 2147483647 := by
  have lo := BitVec.le_toInt p
  have hi := BitVec.toInt_lt (x := p)
  unfold signed32
  norm_num at lo hi
  omega

@[simp] theorem x_zero (s : State) : s.x 0 = 0 := rfl

@[simp] theorem x_withFlags (s : State) (f i) : (s.withFlags f).x i = s.x i := rfl
@[simp] theorem x_withHalted (s : State) (b i) : (s.withHalted b).x i = s.x i := rfl
@[simp] theorem x_withMem (s : State) (m i) : (s.withMem m).x i = s.x i := rfl

theorem x_bounds (s : State) (i) : -2147483648 ≤ s.x i ∧ s.x i ≤ 2147483647 := signed32_bounds _

theorem x_writeReg_same (s : State) {i} (w) (h : i ≠ 0) : (writeReg s i w).x i = signed32 w := by
  rw [State.x, readReg_writeReg_same s w h]

theorem x_writeReg_other (s : State) {i j} (w) (h : j ≠ i) : (writeReg s i w).x j = s.x j := by
  rw [State.x, State.x, readReg_writeReg_other s w h]

/-! ### The increment of the program counter -/

@[simp] theorem advancePc_flags (s : State) : (advancePc s).flags = s.flags := writeReg_flags ..
@[simp] theorem advancePc_halted (s : State) : (advancePc s).halted = s.halted := writeReg_halted ..
@[simp] theorem advancePc_mem (s : State) : (advancePc s).mem = s.mem := writeReg_mem ..
@[simp] theorem advancePc_slot0 (s : State) : (advancePc s).regs[0] = s.regs[0] := writeReg_slot0 ..

theorem pcReg_ne_zero : pcReg ≠ 0 := by decide

theorem readReg_advancePc_pc (s : State) :
    readReg (advancePc s) pcReg = readReg s pcReg + 1#32 := readReg_writeReg_same s _ pcReg_ne_zero

theorem readReg_advancePc_other (s : State) {i} (h : i ≠ pcReg) :
    readReg (advancePc s) i = readReg s i := readReg_writeReg_other s _ h

theorem x_advancePc_other (s : State) {i} (h : i ≠ pcReg) : (advancePc s).x i = s.x i :=
  x_writeReg_other s _ h

/-- The advanced program counter is the old one plus 1, wrapped (10_state.md R28). -/
theorem pc_advancePc (s : State) : (advancePc s).pc = signed32 (bits32 (s.pc + 1)) := by
  have : bits32 (s.pc + 1) = readReg s pcReg + 1#32 := by
    unfold State.pc State.x bits32 signed32
    rw [BitVec.ofInt_add, BitVec.ofInt_toInt]
    rfl
  rw [this, State.pc, State.x, readReg_advancePc_pc]

/-- Below the top of the range the program counter advances by exactly 1. -/
theorem pc_advancePc_of_lt {s : State} (h : s.pc < 2147483647) : (advancePc s).pc = s.pc + 1 := by
  rw [pc_advancePc]
  have := (x_bounds s pcReg).1
  exact signed32_bits32 (by unfold State.pc; omega) (by omega)

/-- At the top of the range it wraps. -/
theorem pc_advancePc_of_top {s : State} (h : s.pc = 2147483647) : (advancePc s).pc = -2147483648 := by
  rw [pc_advancePc, h]
  decide

/-! ### Register operations beside the other fields -/

theorem writeReg_withFlags (s : State) (f i w) :
    writeReg (s.withFlags f) i w = (writeReg s i w).withFlags f := by
  unfold writeReg; split <;> rfl

theorem writeReg_withHalted (s : State) (b i w) :
    writeReg (s.withHalted b) i w = (writeReg s i w).withHalted b := by
  unfold writeReg; split <;> rfl

theorem advancePc_withFlags (s : State) (f) :
    advancePc (s.withFlags f) = (advancePc s).withFlags f := writeReg_withFlags ..

theorem advancePc_withHalted (s : State) (b) :
    advancePc (s.withHalted b) = (advancePc s).withHalted b := writeReg_withHalted ..

end Sys2Proof.Machine
end

