-- ==== Sys2Proof/Laws/Exec.lean ====
section
/-! SUPPORT. What each shared operation of the meanings can do, said once: the provers cite these
and do not unfold. -/

namespace Sys2Proof.Machine

/-! ### The predicate -/

theorem predicated_executed {cond : Mask} {s : State} (r : Result)
    (h : satisfied s.flags cond = true) : predicated cond s r = r := by
  simp [predicated, h]

theorem predicated_skipped {cond : Mask} {s : State} (r : Result)
    (h : satisfied s.flags cond = false) : predicated cond s r = .next (advancePc s) := by
  simp [predicated, h]

/-- The two ways a predicated cycle has a next state. -/
theorem predicated_next {cond : Mask} {s t : State} {r : Result} (h : predicated cond s r = .next t) :
    (satisfied s.flags cond = true ∧ r = .next t) ∨
      (satisfied s.flags cond = false ∧ t = advancePc s) := by
  cases hs : satisfied s.flags cond with
  | true => exact .inl ⟨rfl, by rwa [predicated_executed r hs] at h⟩
  | false =>
    rw [predicated_skipped r hs] at h
    exact .inr ⟨rfl, (Host.Outcome.next.inj h).symm⟩

theorem satisfied_iff (f c : Mask) : satisfied f c = true ↔ f &&& c ≠ 0#4 := by
  simp [satisfied]

/-! ### The arithmetic commit -/

@[simp] theorem commitArithmetic_flags (out : AluOut) (rt s) :
    (commitArithmetic out rt s).flags = out.flag.mask := rfl

@[simp] theorem commitArithmetic_halted (out : AluOut) (rt s) :
    (commitArithmetic out rt s).halted = s.halted := by simp [commitArithmetic]

@[simp] theorem commitArithmetic_mem (out : AluOut) (rt s) :
    (commitArithmetic out rt s).mem = s.mem := by simp [commitArithmetic]

@[simp] theorem commitArithmetic_slot0 (out : AluOut) (rt s) :
    (commitArithmetic out rt s).regs[0] = s.regs[0] := by
  simp only [commitArithmetic, withFlags_regs, writeReg_slot0, advancePc_slot0]

/-- The target holds the narrowed result; register 15 as target loses the increment. -/
theorem readReg_commitArithmetic_target (out : AluOut) {rt} (s) (h : rt ≠ 0) :
    readReg (commitArithmetic out rt s) rt = bits32 out.result :=
  readReg_writeReg_same _ _ h

/-- Every register but the target holds what the increment left. -/
theorem readReg_commitArithmetic_other (out : AluOut) {rt r} (s) (h : r ≠ rt) :
    readReg (commitArithmetic out rt s) r = readReg (advancePc s) r :=
  readReg_writeReg_other _ _ h

/-! ### The load and store commits -/

/-- All that a LOAD's commit can do. -/
theorem commitLoad_cases (ea : Int) (rt : RegIdx) (s : State) :
    (s.mem.has ea ∧ commitLoad ea rt s = .next (writeReg (advancePc s) rt (s.mem.word ea.toNat))) ∨
      (¬ s.mem.has ea ∧ commitLoad ea rt s = .fault (.memFault ea (advancePc s))) := by
  unfold commitLoad
  by_cases h : s.mem.has ea
  · exact .inl ⟨h, by simp only [read_of_has h]⟩
  · exact .inr ⟨h, by simp only [read_of_not_has h, memFault]⟩

/-- All that a STORE's commit can do. -/
theorem commitStore_cases (ea : Int) (rt : RegIdx) (s : State) :
    (∃ m, s.mem.write ea (readReg (advancePc s) rt) = some m ∧
      commitStore ea rt s = .next ((advancePc s).withMem m)) ∨
      (¬ s.mem.has ea ∧ commitStore ea rt s = .fault (.memFault ea (advancePc s))) := by
  unfold commitStore
  by_cases h : s.mem.has ea
  · obtain ⟨m, hm⟩ := write_of_has (readReg (advancePc s) rt) h
    exact .inl ⟨m, hm, by simp only [hm]⟩
  · exact .inr ⟨h, by simp only [write_of_not_has _ h, memFault]⟩

/-! ### All that an instruction can do -/

/-- The operations of the arithmetic commit. -/
theorem exec_arithmetic {i : Instr} (s : State)
    (h : i.op = .add ∨ i.op = .sub ∨ i.op = .mul ∨ i.op = .div) :
    exec i s = arithmeticCycle i.op i.cond i.rt i.rs1 i.rs2 i.off s := by
  cases i <;> first | rfl | simp [Instr.op] at h

/-- Every way an instruction can go, for whole-machine claims: skipped or NOP; else HALT, arithmetic,
LOAD, STORE, or a data access outside the memory. -/
theorem exec_cases (i : Instr) (s : State) :
    ((satisfied s.flags i.cond = false ∨ i.op = .nop) ∧ exec i s = .next (advancePc s)) ∨
    (satisfied s.flags i.cond = true ∧
      ((i.op = .halt ∧ exec i s = .next ((advancePc s).withHalted true)) ∨
       ((i.op = .add ∨ i.op = .sub ∨ i.op = .mul ∨ i.op = .div) ∧
         exec i s = .next (commitArithmetic (aluOf i.op s i.rs1 i.rs2 i.off) i.rt s)) ∨
       (i.op = .load ∧ s.mem.has (loadAddress s i.rs1 i.rs2 i.off) ∧ exec i s =
         .next (writeReg (advancePc s) i.rt (s.mem.word (loadAddress s i.rs1 i.rs2 i.off).toNat))) ∨
       (i.op = .store ∧ ∃ m,
         s.mem.write (storeAddress s i.rs1 i.rs2 i.off) (readReg (advancePc s) i.rt) = some m ∧
         exec i s = .next ((advancePc s).withMem m)) ∨
       ((i.op = .load ∨ i.op = .store) ∧ ¬ s.mem.has (loadAddress s i.rs1 i.rs2 i.off) ∧
         exec i s = .fault (.memFault (loadAddress s i.rs1 i.rs2 i.off) (advancePc s))))) := by
  cases hs : satisfied s.flags i.cond with
  | false => exact .inl ⟨.inl rfl, by cases i <;> exact predicated_skipped _ hs⟩
  | true =>
    cases i with
    | nop c rt rs1 rs2 k => exact .inl ⟨.inr rfl, predicated_executed _ hs⟩
    | halt c rt rs1 rs2 k => exact .inr ⟨rfl, .inl ⟨rfl, predicated_executed _ hs⟩⟩
    | add c rt rs1 rs2 k =>
      exact .inr ⟨rfl, .inr (.inl ⟨.inl rfl, predicated_executed _ hs⟩)⟩
    | sub c rt rs1 rs2 k =>
      exact .inr ⟨rfl, .inr (.inl ⟨.inr (.inl rfl), predicated_executed _ hs⟩)⟩
    | mul c rt rs1 rs2 k =>
      exact .inr ⟨rfl, .inr (.inl ⟨.inr (.inr (.inl rfl)), predicated_executed _ hs⟩)⟩
    | div c rt rs1 rs2 k =>
      exact .inr ⟨rfl, .inr (.inl ⟨.inr (.inr (.inr rfl)), predicated_executed _ hs⟩)⟩
    | load c rt rs1 rs2 k =>
      have he : exec (.load c rt rs1 rs2 k) s = commitLoad (loadAddress s rs1 rs2 k) rt s :=
        predicated_executed _ hs
      rcases commitLoad_cases (loadAddress s rs1 rs2 k) rt s with ⟨hv, e⟩ | ⟨hn, e⟩
      · exact .inr ⟨rfl, .inr (.inr (.inl ⟨rfl, hv, he.trans e⟩))⟩
      · exact .inr ⟨rfl, .inr (.inr (.inr (.inr ⟨.inl rfl, hn, he.trans e⟩)))⟩
    | store c rt rs1 rs2 k =>
      have he : exec (.store c rt rs1 rs2 k) s = commitStore (storeAddress s rs1 rs2 k) rt s :=
        predicated_executed _ hs
      rcases commitStore_cases (storeAddress s rs1 rs2 k) rt s with ⟨m, hm, e⟩ | ⟨hn, e⟩
      · exact .inr ⟨rfl, .inr (.inr (.inr (.inl ⟨rfl, m, hm, he.trans e⟩)))⟩
      · exact .inr ⟨rfl, .inr (.inr (.inr (.inr ⟨.inr rfl, hn, he.trans e⟩)))⟩

/-! ### Fetch -/

theorem fetch_of_has {s : State} (h : s.mem.has s.pc) : fetch s = some (s.mem.word s.pc.toNat) :=
  read_of_has h

theorem fetch_of_not_has {s : State} (h : ¬ s.mem.has s.pc) : fetch s = none := read_of_not_has h

/-- The fetch sees the registers and the memory, neither `flags` nor `halted`. -/
@[simp] theorem fetch_withFlags (s : State) (f) : fetch (s.withFlags f) = fetch s := rfl
@[simp] theorem fetch_withHalted (s : State) (b) : fetch (s.withHalted b) = fetch s := rfl

/-- A step with a next state ran the instruction it fetched. -/
theorem step_next {s t : State} (h : step s = .next t) :
    ∃ w, fetch s = some w ∧ exec (decode w) s = .next t := by
  unfold step at h
  split at h
  · next w hw => exact ⟨w, hw, h⟩
  · cases h

end Sys2Proof.Machine
end

