-- ==== Sys2Proof/Laws/PerInstr.lean ====
section
/-! SUPPORT. Statements for all instructions, one lemma per constructor. -/

/-- An instruction is the record of its own fields: no constructor drops or swaps one (40_decoder.md
R102). -/
def Sys2Proof.Laws.FieldsRebuild.Statement (i : Sys2Proof.Instr) : Prop :=
  Sys2Proof.Instr.ofFields i.op i.cond i.rt i.rs1 i.rs2 i.off = i

namespace Sys2Proof.Laws.FieldsRebuild
open Sys2Proof

theorem halt (cond : Mask) (rt rs1 rs2 : RegIdx) (off : Int) :
    Statement (.halt cond rt rs1 rs2 off) := rfl

theorem load (cond : Mask) (rt rs1 rs2 : RegIdx) (off : Int) :
    Statement (.load cond rt rs1 rs2 off) := rfl

theorem store (cond : Mask) (rt rs1 rs2 : RegIdx) (off : Int) :
    Statement (.store cond rt rs1 rs2 off) := rfl

theorem add (cond : Mask) (rt rs1 rs2 : RegIdx) (off : Int) :
    Statement (.add cond rt rs1 rs2 off) := rfl

theorem nop (cond : Mask) (rt rs1 rs2 : RegIdx) (off : Int) :
    Statement (.nop cond rt rs1 rs2 off) := rfl

theorem sub (cond : Mask) (rt rs1 rs2 : RegIdx) (off : Int) :
    Statement (.sub cond rt rs1 rs2 off) := rfl

theorem mul (cond : Mask) (rt rs1 rs2 : RegIdx) (off : Int) :
    Statement (.mul cond rt rs1 rs2 off) := rfl

theorem div (cond : Mask) (rt rs1 rs2 : RegIdx) (off : Int) :
    Statement (.div cond rt rs1 rs2 off) := rfl

end Sys2Proof.Laws.FieldsRebuild
end

