-- ==== Sys2Proof/Tests/Slice0.lean ====
section
/-! SUPPORT. Small tests, their expected results taken from the spec's worked examples and vectors,
and one witness for each statement with hypotheses. -/

open Sys2Proof Sys2Proof.Machine Sys2Proof.Claims

namespace Sys2Proof.Tests

/-- A core over a memory of 512 words, with a program counter, flags, some registers and some words. -/
def stateOf (pc : Int) (flags : Mask) (regs : List (RegIdx × Int)) (cells : List (Nat × Word)) : State :=
  regs.foldl (fun s r => hostPut s r.1 r.2)
    ((hostPut (State.construct { size := 512, cells := cells }) 15 pc).withFlags flags)

/-- One step of a word placed at the program counter. -/
def stepOf (word : Nat) (s : State) : Result := step (s.withFetchWord 32 word)

/-- The outcome is a next state of which `p` holds. -/
def ends (o : Result) (p : State → Bool) : Bool :=
  match o with
  | .next t => p t
  | _ => false

/-- The outcome is a `MemFault` at an address, in a state of which `p` holds. -/
def faultsAt (o : Result) (a : Int) (p : State → Bool) : Bool :=
  match o with
  | .fault (.memFault b l) => a == b && p l
  | _ => false

/-! ### WellFormed -/

theorem test_wf_bounds : (Instr.add 15#4 1 0 0 511).wf ∧ (Instr.add 15#4 1 0 0 (-512)).wf := by decide
theorem test_wf_refuses_large_offset : ¬ (Instr.store 15#4 1 0 0 512).wf := by decide
theorem test_wf_refuses_small_offset : ¬ (Instr.nop 0#4 1 0 0 (-513)).wf := by decide

/-! ### Decode: words written out bit by bit from 30_encoding.md R71 (res opf cond rt rs1 rs2 off) -/

/-- `HALT r7,r8,r9[-3]`, 95_test_vectors.md section 2. -/
theorem test_decode_halt :
    decode 0b0_00000_1111_0111_1000_1001_1111111101#32 = .halt 15#4 7 8 9 (-3) := by decide
/-- `LOAD r15,r15,r0[3]`, S-P1. -/
theorem test_decode_load :
    decode 0b0_00001_1111_1111_1111_0000_0000000011#32 = .load 15#4 15 15 0 3 := by decide
/-- `STORE/V r1,r0,r0[20]`, S-P1. -/
theorem test_decode_store :
    decode 0b0_00010_1000_0001_0000_0000_0000010100#32 = .store 8#4 1 0 0 20 := by decide
/-- `ADD r1,r0,r0[5]`, R84. -/
theorem test_decode_add :
    decode 0b0_00011_1111_0001_0000_0000_0000000101#32 = .add 15#4 1 0 0 5 := by decide
/-- Canonical NOP, R86, and the codes 8 and 31 (R108), one with bit 31 set. -/
theorem test_decode_nop :
    decode 0b0_00100_1111_0000_0000_0000_0000000000#32 = .nop 15#4 0 0 0 0 ∧
    decode 0b0_01000_1111_0000_0000_0000_0000000000#32 = .nop 15#4 0 0 0 0 ∧
    decode 0b1_11111_1111_1111_1111_1111_1111111111#32 = .nop 15#4 15 15 15 (-1) := by decide
/-- `SUB/M r3,r4,r5[-1]`, R84. -/
theorem test_decode_sub :
    decode 0b0_00101_0001_0011_0100_0101_1111111111#32 = .sub 1#4 3 4 5 (-1) := by decide
/-- `MUL r3,r1,r0[-2]`, S-P1. -/
theorem test_decode_mul :
    decode 0b0_00110_1111_0011_0001_0000_1111111110#32 = .mul 15#4 3 1 0 (-2) := by decide
/-- `DIV/M r15,r15,r15[-512]`, S-P1. -/
theorem test_decode_div :
    decode 0b0_00111_0001_1111_1111_1111_1000000000#32 = .div 1#4 15 15 15 (-512) := by decide
/-- R84 and R106. -/
theorem test_encode :
    encode (.sub 1#4 3 4 5 (-1)) = 0x144D17FF#32 ∧ encode (.load 15#4 2 0 0 100) = 0x07C80064#32 ∧
    encode (decode 0x8FC40005#32) = 0x0FC40005#32 ∧
    encode (decode 0xFFFFFFFF#32) = 0x13FFFFFF#32 := by decide
theorem test_table_word : decodeTableWord 32 0x1FCC4BFB = some (.div 15#4 3 1 2 (-5)) := by decide

/-! ### One step, vectors of 95_test_vectors.md section 6 -/

theorem test_add_overflow_gives_zero_and_v :
    ends (stepOf 0x0FCC4001 (stateOf 0 15#4 [(1, 2147483647), (3, 55)] []))
      (fun t => t.x 3 == 0 && t.flags == 8#4 && t.pc == 1) = true := by decide
theorem test_add_checks_only_the_sum :
    ends (stepOf 0x0FCC4801 (stateOf 0 15#4 [(1, -1), (2, 2147483647)] []))
      (fun t => t.x 3 == 2147483647 && t.flags == 4#4) = true := by decide
theorem test_sub_jump_subtracts_offset :
    ends (stepOf 0x15BC03F9 (stateOf 9 2#4 [] []))
      (fun t => t.pc == 7 && t.flags == 4#4) = true := by decide
theorem test_sub_faulting_jump_goes_to_zero :
    ends (stepOf 0x17FC4001 (stateOf 9 15#4 [(1, -2147483648)] []))
      (fun t => t.pc == 0 && t.flags == 8#4) = true := by decide
theorem test_mul_keeps_no_low_half :
    ends (stepOf 0x1BC44400 (stateOf 0 15#4 [(1, 65536)] []))
      (fun t => t.x 1 == 0 && t.flags == 8#4) = true := by decide
theorem test_mul_signed :
    ends (stepOf 0x1BCC43FE (stateOf 0 15#4 [(1, 21)] []))
      (fun t => t.x 3 == -42 && t.flags == 1#4) = true := by decide
theorem test_div_floors :
    ends (stepOf 0x1FCC4800 (stateOf 0 15#4 [(1, -7), (2, 2)] []))
      (fun t => t.x 3 == -4 && t.flags == 1#4) = true := by decide
theorem test_div_zero_divisor_from_offset :
    ends (stepOf 0x1FCC4BFB (stateOf 0 15#4 [(1, 9), (2, 5), (3, 1)] []))
      (fun t => t.x 3 == 0 && t.flags == 8#4 && t.pc == 1) = true := by decide
theorem test_load_jump_keeps_flags :
    ends (stepOf 0x07FC0032 (stateOf 3 1#4 [] [(50, 9#32)]))
      (fun t => t.pc == 9 && t.flags == 1#4) = true := by decide
theorem test_load_out_of_range_sum_reads_zero :
    ends (stepOf 0x07C84400 (stateOf 5 15#4 [(1, 2147483647)] [(0, 1234#32)]))
      (fun t => t.x 2 == 1234 && t.pc == 6) = true := by decide
theorem test_store_pc_stores_next_address :
    ends (stepOf 0x0BFC0014 (stateOf 1 15#4 [] []))
      (fun t => t.mem.read 20 == some 2#32 && t.pc == 2) = true := by decide
theorem test_store_negative_value :
    ends (stepOf 0x0BC84C04 (stateOf 0 15#4 [(1, 10), (2, -6), (3, 20)] []))
      (fun t => t.mem.read 34 == some 0xFFFFFFFA#32) = true := by decide
theorem test_halt_leaves_registers :
    ends (stepOf 0x03DE27FD (stateOf 1 4#4 [(7, 1)] []))
      (fun t => t.halted && t.pc == 2 && t.x 7 == 1 && t.flags == 4#4) = true := by decide
theorem test_halt_skipped :
    ends (stepOf 0x00800000 (stateOf 1 4#4 [] []))
      (fun t => !t.halted && t.pc == 2) = true := by decide
theorem test_nop_unrecognised_code :
    ends (stepOf 0xFFFFFFFF (stateOf 3 2#4 [] []))
      (fun t => t.pc == 4 && t.flags == 2#4) = true := by decide
/-- Decision D12: a step while halted is a normal cycle. -/
theorem test_step_while_halted :
    ends (stepOf 0x0FC40005 ((stateOf 2 15#4 [] []).withHalted true))
      (fun t => t.x 1 == 5 && t.flags == 4#4 && t.pc == 3 && t.halted) = true := by decide

/-! ### Model outcomes, 95_test_vectors.md section 8 -/

theorem test_fetch_fault : faultsAt (step (stateOf (-1) 15#4 [] [])) (-1) (fun l => l.pc == -1) = true := by
  decide
theorem test_load_fault_after_the_advance :
    faultsAt (stepOf 0x07C403FF (stateOf 0 15#4 [(1, 7)] [])) (-1)
      (fun l => l.pc == 1 && l.x 1 == 7) = true := by decide
theorem test_store_fault_past_the_last_word :
    faultsAt (stepOf 0x0BC409FF (stateOf 0 15#4 [(2, 1)] [])) 512 (fun l => l.pc == 1) = true := by decide
/-- S-P6: `run(0)` of a HALT makes exactly one cycle. -/
theorem test_run_of_a_halt :
    (match run 1 0 (stateOf 7 15#4 [] [(0, 0x03C00000#32)]) with
     | .finished t => t.halted && t.pc == 1
     | _ => false) = true := by decide
theorem test_observe :
    observe (stateOf 2 15#4 [] [(2, 0x0FC40005#32)]) =
      some { address := 2, word := 0x0FC40005#32, instr := .add 15#4 1 0 0 5 } := by decide
theorem test_memory_canonical :
    Memory.update [(3, 7#32), (9, 1#32)] 5 2#32 = [(3, 7#32), (5, 2#32), (9, 1#32)] ∧
    Memory.update [(3, 7#32), (9, 1#32)] 3 0#32 = [(9, 1#32)] := by decide

/-! ### Witnesses: concrete states and operands that meet a statement's hypotheses, with a boundary
value for each of its clauses -/

/-- The state most witnesses use. -/
def s0 : State := stateOf 4 4#4 [(1, 2147483647), (2, -2147483648), (3, 7), (5, 511)]
  [(4, 0x0FC40005#32), (511, 3#32)]

/-- The hypotheses of the round trip at both ends of the offset, and its last canonical word. -/
theorem witness_DecodeEncodeRoundTrip : (Instr.div 15#4 15 15 15 511).wf ∧
    (Instr.halt 0#4 0 0 0 (-512)).wf ∧ encode (.div 15#4 15 15 15 (-1)) = 0x1FFFFFFF#32 ∧
    (0x1FFFFFFF#32).toNat < 536870912 := by decide

theorem witness_EncodeAfterDecodeCanonicalises :
    (0x1FFFFFFF#32).toNat / 2 ^ 26 % 32 = 7 ∧ (0x20000000#32).toNat / 2 ^ 26 % 32 = 8 ∧
    (0x9FFFFFFF#32).toNat / 2 ^ 26 % 32 = 7 := by decide

theorem witness_ReservedBitAndUnrecognisedCodes :
    8 ≤ (0x23C00000#32).toNat / 2 ^ 26 % 32 ∧ (0x13C00000#32).toNat / 2 ^ 26 % 32 = 4 ∧
    (0x23C00000#32).toNat % 2 ^ 26 = (0x13C00000#32).toNat % 2 ^ 26 := by decide

theorem witness_DivisionRoundsDown :
    (alu .div 7 (-2)).flag.mask ≠ 8#4 ∧ (alu .div (-7) 2).flag.mask ≠ 8#4 ∧
    (alu .div (-2147483648) 1).flag.mask ≠ 8#4 ∧ (alu .div (-2147483648) (-1)).flag.mask = 8#4 := by
  decide

theorem witness_RegisterFileLaws :
    (-2147483648 : Int) ≤ 2147483647 ∧ hostGet (hostPut s0 5 (-2147483648)) 5 = -2147483648 ∧
    hostGet (hostPut s0 15 2147483647) 15 = 2147483647 ∧ hostGet (hostPut s0 0 123) 0 = 0 := by decide

theorem witness_RegisterZeroIsHardWired :
    (∃ t, exec (.add 15#4 0 1 0 0) s0 = .next t) ∧ (∃ t, exec (.store 15#4 0 0 0 20) s0 = .next t) ∧
    s0.mem.has (address s0 0 0 511) :=
  ⟨⟨_, rfl⟩, ⟨_, rfl⟩, by decide⟩

/-- The last value in the range and the first outside it. -/
theorem witness_AddResult : Executes s0 15#4 ∧ s0.x 1 + (s0.x 0 + 0) = 2147483647 ∧
    s0.x 1 + (s0.x 0 + 1) = 2147483648 ∧ s0.x 2 + (s0.x 0 + -1) = -2147483649 := by decide

theorem witness_SubResult : Executes s0 4#4 ∧ s0.x 2 - (s0.x 0 + 0) = -2147483648 ∧
    s0.x 2 - (s0.x 0 + 1) = -2147483649 ∧ s0.x 0 - (s0.x 2 + 0) = 2147483648 := by decide

theorem witness_MulResult : Executes s0 5#4 ∧ s0.x 2 * (s0.x 0 + 1) = -2147483648 ∧
    s0.x 2 * (s0.x 0 + -1) = 2147483648 ∧ s0.x 1 * (s0.x 0 + 0) = 0 := by decide

theorem witness_DivResult : Executes s0 12#4 ∧ s0.x 3 + -7 = 0 ∧ s0.x 3 + -8 ≠ 0 := by decide

/-- The last word of the memory, address 0, and an exact sum out of the range (address 0). -/
theorem witness_LoadResult : Executes s0 15#4 ∧ address s0 0 0 511 = 511 ∧ (511 : Int) < s0.mem.size ∧
    address s0 0 0 0 = 0 ∧ address s0 1 1 0 = 0 := by decide

theorem witness_StoreResult : Executes s0 15#4 ∧ 0 ≤ address s0 5 0 0 ∧
    address s0 5 0 0 < s0.mem.size ∧ address s0 2 0 (-1) = 0 := by decide

/-- The first address past the end and the first below 0. -/
theorem witness_DataAccessOutsideMemoryFaults : Executes s0 15#4 ∧
    s0.mem.size ≤ address s0 5 0 1 ∧ address s0 5 0 1 = 512 ∧ address s0 0 0 (-1) = -1 := by decide

theorem witness_HaltResult : Executes s0 4#4 ∧ Executes (s0.withFlags 8#4) 8#4 := by decide

theorem witness_SkippedInstructionOnlyAdvances :
    s0.flags &&& (Instr.halt 11#4 1 2 3 0).cond = 0#4 ∧ s0.flags &&& (Instr.load 0#4 1 2 3 0).cond = 0#4 ∧
    s0.pc < 2147483647 := by decide

theorem witness_ArithmeticCommitWritesBoth :
    Arithmetic (Instr.div 15#4 0 3 0 0).op ∧ Executes s0 (Instr.div 15#4 0 3 0 0).cond ∧
    (alu .div (s0.x 3) (s0.x 0 + 0)).flag = .overflow ∧
    Arithmetic (Instr.add 4#4 15 3 0 0).op ∧ Executes s0 (Instr.add 4#4 15 3 0 0).cond ∧
    (alu .add (s0.x 3) (s0.x 0 + 0)).flag ≠ .overflow := by decide

theorem witness_ArithmeticJump :
    Arithmetic (Instr.sub 15#4 15 2 0 1).op ∧ Executes s0 15#4 ∧
    (alu .sub (s0.x 2) (s0.x 0 + 1)).flag = .overflow ∧
    ¬ Executes s0 (Instr.add 1#4 15 0 0 9).cond ∧ s0.flags ≠ 0#4 := by decide

theorem witness_ArithmeticTestWithoutTarget :
    Arithmetic (Instr.add 15#4 0 1 0 0).op ∧ Executes s0 15#4 ∧ s0.flags ≠ 0#4 ∧ 0 < s0.x 1 ∧
    (hostPut s0 1 (-1)).x 1 < 0 ∧ (hostPut s0 1 0).x 1 = 0 := by decide

theorem witness_SubComparesRegisters : Executes s0 15#4 ∧ s0.x 3 - s0.x 3 = 0 ∧
    s0.x 1 - s0.x 0 = 2147483647 ∧ s0.x 0 - s0.x 2 = 2147483648 ∧ s0.x 3 < s0.x 5 := by decide

theorem witness_MinusPredicateUnderZeroFlag : Arithmetic (Instr.add 1#4 1 0 0 7).op ∧
    (Instr.add 1#4 1 0 0 7).cond = 1#4 ∧ (s0.withFlags 2#4).flags = 2#4 ∧
    (s0.withFlags 2#4).pc < 2147483647 := by decide

theorem witness_ProgramCounterAsOperand : Executes s0 15#4 ∧ (3 : RegIdx) ≠ 0 ∧
    -2147483648 ≤ s0.pc + -512 ∧ s0.pc + 511 ≤ 2147483647 ∧ (0 : Int) < s0.mem.size ∧
    (511 : Int) < s0.mem.size := by decide

theorem witness_ArithmeticFrame : Arithmetic (Instr.mul 15#4 3 1 2 0).op ∧
    ∃ t, exec (.mul 15#4 3 1 2 0) s0 = .next t := ⟨by decide, _, rfl⟩

theorem witness_LoadFrame : (∃ t, exec (.load 15#4 3 0 0 511) s0 = .next t) ∧
    ∃ t, exec (.load 1#4 3 0 0 511) s0 = .next t := ⟨⟨_, rfl⟩, _, rfl⟩

theorem witness_StoreFrame : (∃ t, exec (.store 15#4 3 5 0 0) s0 = .next t) ∧
    (∃ t, exec (.store 1#4 3 5 0 0) s0 = .next t) ∧ ¬ Executes s0 1#4 :=
  ⟨⟨_, rfl⟩, ⟨_, rfl⟩, by decide⟩

theorem witness_ControlFrame : (∃ t, exec (.halt 15#4 3 5 0 0) s0 = .next t) ∧
    (∃ t, exec (.halt 1#4 3 5 0 0) s0 = .next t) ∧ ∃ t, exec (.nop 15#4 3 5 0 0) s0 = .next t :=
  ⟨⟨_, rfl⟩, ⟨_, rfl⟩, _, rfl⟩

/-- The program counter at address 0, at the last word, just past it, and just below 0. -/
theorem witness_StepRunsDecodedInstruction :
    (0 ≤ (hostPut s0 15 0).pc ∧ (hostPut s0 15 0).pc < s0.mem.size) ∧
    ((hostPut s0 15 511).pc < s0.mem.size) ∧ s0.mem.size ≤ (hostPut s0 15 512).pc ∧
    (hostPut s0 15 (-1)).pc < 0 := by decide

theorem witness_OnlyMemFaultStopsACycle : (Instr.div 15#4 3 1 0 0).op ≠ .load ∧
    (Instr.div 15#4 3 1 0 0).op ≠ .store ∧
    ∃ l, step (hostPut s0 15 512) = .fault (.memFault 512 l) := ⟨by decide, by decide, _, rfl⟩

/-- A fetch fault and a data fault. -/
theorem witness_WhenACycleFaults : fetch (hostPut s0 15 (-1)) = none ∧
    faultsAt (stepOf 0x07C403FF s0) (-1) (fun l => l.pc == 5) = true := by decide

theorem witness_ProgramCounterAfterACycle :
    (∃ t, fetch s0 = some 0x0FC40005#32 ∧ step s0 = .next t) ∧
    (decode 0x0FFC0002#32).rt = 15 ∧ Arithmetic (decode 0x0FFC0002#32).op ∧
    (decode 0x07FC0032#32).rt = 15 ∧ (decode 0x07FC0032#32).op = .load ∧
    (∃ t, step (s0.withFetchWord 32 0x0FFC0002) = .next t) ∧
    ∃ t, step (s0.withFetchWord 32 0x07FC0032) = .next t :=
  ⟨⟨_, by decide, rfl⟩, by decide, by decide, by decide, by decide, ⟨_, rfl⟩, _, rfl⟩

theorem witness_ProgramCounterWrapsAtTheTop : (hostPut s0 15 2147483647).pc = 2147483647 ∧
    ¬ (Executes (hostPut s0 15 2147483647) 15#4 ∧ (3 : RegIdx) = 15 ∧
      (Arithmetic Op.add ∨ Op.add = Op.load)) ∧
    ∃ t, exec (.add 15#4 3 0 0 0) (hostPut s0 15 2147483647) = .next t :=
  ⟨by decide, by decide, _, rfl⟩

theorem witness_FlagsWrittenOnlyByArithmetic :
    (∃ t, fetch s0 = some 0x0FC40005#32 ∧ step s0 = .next t) ∧
    Arithmetic (decode 0x0FC40005#32).op ∧ Executes s0 (decode 0x0FC40005#32).cond ∧
    ∃ t, step (s0.withFetchWord 32 0x0A040014) = .next t :=
  ⟨⟨_, by decide, rfl⟩, by decide, by decide, _, rfl⟩

/-- Two flags that pass a test alike, and two that fail it alike. -/
theorem witness_FlagsReadOnlyByThePredicate :
    (s0.flags &&& (Instr.load 12#4 3 0 0 9).cond = 0#4 ↔ 8#4 &&& (Instr.load 12#4 3 0 0 9).cond = 0#4) ∧
    s0.flags &&& 12#4 ≠ 0#4 ∧ (s0.flags &&& 1#4 = 0#4 ↔ 2#4 &&& 1#4 = 0#4) ∧
    s0.flags &&& 1#4 = 0#4 := by decide

theorem witness_HaltedBitRule :
    (∃ t, fetch s0 = some 0x0FC40005#32 ∧ step s0 = .next t) ∧
    (∃ t, step (s0.withFetchWord 32 0x03C00000) = .next t ∧ t.halted = true) ∧
    (∃ l, step (hostPut s0 15 512) = .fault (.memFault 512 l)) ∧ (s0.withHalted true).halted = true :=
  ⟨⟨_, by decide, rfl⟩, ⟨_, rfl, rfl⟩, ⟨_, rfl⟩, rfl⟩

theorem witness_MemoryWrittenOnlyByStore :
    ∃ t, fetch (s0.withFetchWord 32 0x0BC40014) = some 0x0BC40014#32 ∧
      step (s0.withFetchWord 32 0x0BC40014) = .next t ∧
      t.mem.word 20 ≠ (s0.withFetchWord 32 0x0BC40014).mem.word 20 :=
  ⟨_, by decide, rfl, by decide⟩

theorem witness_StoreIsSeenByTheNextFetch : Executes s0 15#4 ∧
    ∃ t, exec (.store 15#4 3 5 0 0) s0 = .next t ∧ (hostPut t 15 511).mem = t.mem ∧
      (hostPut t 15 511).pc = address s0 5 0 0 := ⟨by decide, _, rfl, by decide, by decide⟩

theorem witness_ObservationEvent : fetch s0 = some 0x0FC40005#32 ∧
    fetch (hostPut s0 15 512) = none := by decide

theorem witness_MemoryReadAfterWrite : s0.mem.size = 512 ∧ s0.mem.wf ∧
    s0.mem.read 511 = some 3#32 ∧ s0.mem.read 512 = none ∧ s0.mem.read (-1) = none ∧
    s0.mem.read 0 = some 0#32 := by decide

theorem witness_CanonicalMemoriesReadingAlikeAreEqual : s0.mem.wf ∧
    ({ size := 1, cells := [(0, 1#32)] } : Memory).wf ∧
    ({ size := 2147483648, cells := [] } : Memory).wf := by decide

theorem witness_StepKeepsTheInvariant : s0.inv ∧ (s0.withFlags 15#4).inv ∧
    (∃ t, step s0 = .next t) ∧ ∃ l, step (hostPut s0 15 512) = .fault (.memFault 512 l) :=
  ⟨by decide, by decide, ⟨_, rfl⟩, _, rfl⟩

theorem witness_HostActionsKeepTheInvariant : s0.inv ∧
    ∃ t, hostWriteMem s0 511 (-1) = some t := ⟨by decide, _, rfl⟩

theorem witness_ResetMeetsTheInvariant : s0.mem.wf := by decide

theorem witness_OneFlagForEverAfterArithmetic : Arithmetic (Instr.div 15#4 3 1 0 0).op ∧
    Executes s0 15#4 ∧ (∃ t, exec (.div 15#4 3 1 0 0) s0 = .next t) ∧ s0.flags = 4#4 ∧
    ∃ t, Reaches s0 t ∧ t ≠ s0 :=
  ⟨by decide, by decide, ⟨_, rfl⟩, by decide, _, .tail _ _ .refl rfl, by decide⟩

theorem witness_ReachableStatesMeetTheInvariant : s0.mem.wf ∧
    ∃ t, Reaches (launch 4 (State.construct s0.mem)) t ∧ t.pc = 5 :=
  ⟨by decide, _, .tail _ _ .refl rfl, by decide⟩

theorem witness_LaunchSetsPcAndClearsHalted : (launch 2147483647 s0).pc = 2147483647 ∧
    (launch (-2147483648) s0).pc = -2147483648 := by decide

theorem witness_RunEndsOnlyWhenHalted :
    (∃ t, run 2 0 (stateOf 7 15#4 [] [(0, 0x0FC40005#32), (1, 0x03C00000#32)]) = .finished t) ∧
    ∃ t, run 1 0 (stateOf 7 15#4 [] [(0, 0x0FC40005#32), (1, 0x03C00000#32)]) = .outOfFuel t :=
  ⟨⟨_, rfl⟩, _, rfl⟩

theorem witness_HaltIsTerminalForRun :
    fetch (s0.withFetchWord 32 0x03C00000) = some 0x03C00000#32 ∧
    (decode 0x03C00000#32).op = .halt ∧
    Executes (s0.withFetchWord 32 0x03C00000) (decode 0x03C00000#32).cond ∧
    (s0.withFetchWord 32 0x03C00000).halted = false := by decide

theorem witness_HostMemoryAccess : hostReadMem s0 512 = none ∧ hostReadMem s0 (-1) = none ∧
    hostReadMem s0 511 = some 3 ∧ hostReadMem s0 0 = some 0 := by decide

theorem witness_PlacedWordIsRunNext : 0 < s0.mem.size ∧ 0 ≤ s0.pc ∧ s0.pc < s0.mem.size ∧
    (hostPut s0 15 (-1)).pc < 0 := by decide

end Sys2Proof.Tests
end

/-! ### SUPPORT. All that a cycle can do, as one predicate on the next state, and what follows from it
field by field. -/

section

open Sys2Proof.Claims

namespace Sys2Proof.Machine

/-! #### Addresses and the next program counter in the words of the claims -/

/-- The address of a LOAD is the effective address of 45_load_store.md R192, R193. -/
theorem loadAddress_eq_address (s : State) (rs1 rs2 : RegIdx) (off : Int) :
    loadAddress s rs1 rs2 off = address s rs1 rs2 off := by
  unfold loadAddress aluOf alu aluOfExact address answer leftOperand rightOperand
  simp only [exactValue]
  split <;> rfl

theorem storeAddress_eq_address (s : State) (rs1 rs2 : RegIdx) (off : Int) :
    storeAddress s rs1 rs2 off = address s rs1 rs2 off :=
  loadAddress_eq_address s rs1 rs2 off

theorem pc_advancePc_eq_nextPc (s : State) : (advancePc s).pc = nextPc s := by
  have hmax : s.pc ≤ 2147483647 := (x_bounds s pcReg).2
  unfold nextPc
  split
  · next htop => exact pc_advancePc_of_top htop
  · next hne => exact pc_advancePc_of_lt (by omega)

/-! #### The arithmetic commit and a write that is read back -/

/-- The target of an executed arithmetic instruction holds the ALU's result, which is in range. -/
theorem x_commitArithmetic_target (op : Op) (a b : Int) {rt : RegIdx} (s : State) (h : rt ≠ 0) :
    (commitArithmetic (alu op a b) rt s).x rt = (alu op a b).result := by
  obtain ⟨lo, hi⟩ := alu_result_inRange op a b
  rw [State.x, readReg_commitArithmetic_target _ s h, signed32_bits32 lo hi]

theorem x_commitArithmetic_other (out : AluOut) {rt r : RegIdx} (s : State) (h : r ≠ rt) :
    (commitArithmetic out rt s).x r = (advancePc s).x r := by
  rw [State.x, State.x, readReg_commitArithmetic_other out s h]

/-- An exact sum in the range is what ADD answers. -/
theorem alu_add_result {a b : Int} (h : inRange (a + b)) : (alu .add a b).result = a + b := by
  rw [alu_of_inRange rfl h]

/-- A written word is read back at its address. -/
theorem read_of_write_same {m m' : Memory} {addr : Int} {w : Word} (h : m.write addr w = some m') :
    m'.read addr = some w := by
  obtain ⟨hin, hsize, hword, -, -⟩ := write_some h
  rw [read_of_has (by rwa [Memory.has, hsize]), hword]

/-! #### An instruction's outcome -/

/-- How an instruction `i` comes from a state to its next one, one constructor per way (43_sequencer.md
R156, R160). -/
inductive NextBy (i : Instr) (s : State) : State → Prop where
  /-- Skipped, or a NOP. -/
  | advanced (hskip : ¬ Executes s i.cond ∨ i.op = .nop) : NextBy i s (advancePc s)
  | halt (hx : Executes s i.cond) (hop : i.op = .halt) : NextBy i s ((advancePc s).withHalted true)
  | arithmetic (hx : Executes s i.cond) (hop : Arithmetic i.op) :
      NextBy i s (commitArithmetic (aluOf i.op s i.rs1 i.rs2 i.off) i.rt s)
  | load (hx : Executes s i.cond) (hop : i.op = .load)
      (hin : s.mem.has (address s i.rs1 i.rs2 i.off)) :
      NextBy i s (writeReg (advancePc s) i.rt (s.mem.word (address s i.rs1 i.rs2 i.off).toNat))
  | store (hx : Executes s i.cond) (hop : i.op = .store) (m : Memory)
      (hm : s.mem.write (address s i.rs1 i.rs2 i.off) (readReg (advancePc s) i.rt) = some m) :
      NextBy i s ((advancePc s).withMem m)

/-- An instruction has one of the next states of `NextBy`, or it is an executed LOAD or STORE that
faults outside the memory. -/
theorem exec_next_or_fault (i : Instr) (s : State) :
    (∃ t, exec i s = .next t ∧ NextBy i s t) ∨
      (Executes s i.cond ∧ (i.op = .load ∨ i.op = .store) ∧
        ¬ s.mem.has (address s i.rs1 i.rs2 i.off) ∧
        exec i s = .fault (.memFault (address s i.rs1 i.rs2 i.off) (advancePc s))) := by
  have h := exec_cases i s
  rw [loadAddress_eq_address, storeAddress_eq_address, satisfied_iff] at h
  rcases h with ⟨hskip, he⟩ | ⟨hx, ⟨hop, he⟩ | ⟨hop, he⟩ | ⟨hop, hin, he⟩ | ⟨hop, m, hm, he⟩ |
    ⟨hop, hout, he⟩⟩
  · refine .inl ⟨_, he, .advanced (hskip.imp_left fun hs hx => ?_)⟩
    simp [(satisfied_iff _ _).mpr hx] at hs
  · exact .inl ⟨_, he, .halt hx hop⟩
  · exact .inl ⟨_, he, .arithmetic hx hop⟩
  · exact .inl ⟨_, he, .load hx hop hin⟩
  · exact .inl ⟨_, he, .store hx hop m hm⟩
  · exact .inr ⟨hx, hop, hout, he⟩

theorem exec_next {i : Instr} {s t : State} (h : exec i s = .next t) : NextBy i s t := by
  rcases exec_next_or_fault i s with ⟨u, he, hu⟩ | ⟨-, -, -, he⟩ <;> rw [he] at h
  · rwa [← Host.Outcome.next.inj h]
  · cases h

/-- An instruction faults only outside the memory, with the program counter advanced
(60_exceptions.md R224). -/
theorem exec_fault {i : Instr} {s l : State} {a : Int} (h : exec i s = .fault (.memFault a l)) :
    Executes s i.cond ∧ (i.op = .load ∨ i.op = .store) ∧ a = address s i.rs1 i.rs2 i.off ∧
      ¬ s.mem.has a ∧ l = advancePc s := by
  rcases exec_next_or_fault i s with ⟨u, he, -⟩ | ⟨hx, hop, hout, he⟩ <;> rw [he] at h
  · cases h
  · cases h
    exact ⟨hx, hop, rfl, hout, rfl⟩

theorem exec_arithmetic_executed {i : Instr} {s : State} (hop : Arithmetic i.op)
    (hx : Executes s i.cond) :
    exec i s = .next (commitArithmetic (aluOf i.op s i.rs1 i.rs2 i.off) i.rt s) := by
  rw [exec_arithmetic s hop, arithmeticCycle, predicated_executed _ ((satisfied_iff _ _).mpr hx)]

/-- The only next state of an executed LOAD. -/
theorem exec_load_next {i : Instr} {s t : State} (hx : Executes s i.cond) (hop : i.op = .load)
    (h : exec i s = .next t) :
    t = writeReg (advancePc s) i.rt (s.mem.word (address s i.rs1 i.rs2 i.off).toNat) := by
  cases exec_next h with
  | advanced hskip => simp [hop, hx] at hskip
  | halt _ hop' => simp [hop] at hop'
  | arithmetic _ hop' => simp [Arithmetic, hop] at hop'
  | load _ _ _ => rfl
  | store _ hop' _ _ => simp [hop] at hop'

/-- An executed ADD leaves the exact sum in its target, where the sum is in the range. -/
theorem exec_add_in_range {s : State} {cond : Mask} {rt rs1 rs2 : RegIdx} {off : Int}
    {v : Int} (hx : Executes s cond) (hrt : rt ≠ 0) (hv : s.x rs1 + (s.x rs2 + off) = v)
    (hr : inRange v) : ∃ t, exec (.add cond rt rs1 rs2 off) s = .next t ∧ t.x rt = v := by
  subst hv
  exact ⟨_, exec_arithmetic_executed (i := .add cond rt rs1 rs2 off) (.inl rfl) hx,
    (x_commitArithmetic_target .add _ _ s hrt).trans (alu_add_result hr)⟩

/-- An executed STORE to a word of the memory writes what its register holds after the advance. -/
theorem exec_store_executed {s : State} {cond : Mask} {rt rs1 rs2 : RegIdx} {off : Int}
    {ea : Int} (hx : Executes s cond) (hea : address s rs1 rs2 off = ea) (hin : s.mem.has ea) :
    ∃ m, s.mem.write ea (readReg (advancePc s) rt) = some m ∧
      exec (.store cond rt rs1 rs2 off) s = .next ((advancePc s).withMem m) := by
  have he : exec (.store cond rt rs1 rs2 off) s = commitStore (storeAddress s rs1 rs2 off) rt s :=
    predicated_executed _ ((satisfied_iff _ _).mpr hx)
  rw [he, storeAddress_eq_address, hea]
  exact (commitStore_cases _ rt s).resolve_right fun h => h.1 hin

/-- An instruction that is no LOAD and no STORE has a next state, and so has one whose address is in
the memory. -/
theorem exec_has_next {i : Instr} {s : State}
    (h : (i.op ≠ .load ∧ i.op ≠ .store) ∨ s.mem.has (address s i.rs1 i.rs2 i.off)) :
    ∃ t, exec i s = .next t := by
  rcases exec_next_or_fault i s with ⟨t, he, -⟩ | ⟨-, hop, hout, -⟩
  · exact ⟨t, he⟩
  · rcases h with ⟨hl, hs⟩ | hin
    · exact absurd hop (not_or.mpr ⟨hl, hs⟩)
    · exact absurd hin hout

/-! #### The next state, field by field -/

/-- The flags after an instruction (10_state.md R30). -/
theorem NextBy.flags {i : Instr} {s t : State} (h : NextBy i s t) :
    t.flags = if Arithmetic i.op ∧ Executes s i.cond then (aluOf i.op s i.rs1 i.rs2 i.off).flag.mask
      else s.flags := by
  cases h with
  | advanced hskip =>
    rw [advancePc_flags, if_neg]
    rintro ⟨ha, hx⟩
    rcases hskip with hn | hop
    · exact hn hx
    · simp [Arithmetic, hop] at ha
  | halt _ hop => simp [Arithmetic, hop]
  | arithmetic hx hop => rw [commitArithmetic_flags, if_pos ⟨hop, hx⟩]
  | load _ hop => simp [Arithmetic, hop]
  | store _ hop => simp [Arithmetic, hop]

/-- The halted bit after an instruction (10_state.md R33). -/
theorem NextBy.halted_iff {i : Instr} {s t : State} (h : NextBy i s t) :
    t.halted = true ↔ s.halted = true ∨ (i.op = .halt ∧ Executes s i.cond) := by
  cases h with
  | advanced hskip =>
    rw [advancePc_halted, or_iff_left]
    rintro ⟨hhalt, hx⟩
    rcases hskip with hn | hop
    · exact hn hx
    · simp [hop] at hhalt
  | halt hx hop => simp [hop, hx]
  | arithmetic _ hop =>
    have hne : i.op ≠ .halt := by rintro e; simp [Arithmetic, e] at hop
    simp [hne]
  | load _ hop => simp [hop]
  | store _ hop => simp [hop]

/-- Where nothing is committed to register 15, the program counter is the incremented one
(10_state.md R27). -/
theorem NextBy.pc_of_not_committed {i : Instr} {s t : State} (h : NextBy i s t)
    (hno : ¬ (Executes s i.cond ∧ i.rt = 15 ∧ (Arithmetic i.op ∨ i.op = .load))) :
    t.pc = (advancePc s).pc := by
  cases h with
  | advanced _ => rfl
  | halt _ _ => rfl
  | arithmetic hx hop => exact x_commitArithmetic_other _ s fun e => hno ⟨hx, e.symm, .inl hop⟩
  | load hx hop _ => exact x_writeReg_other _ _ fun e => hno ⟨hx, e.symm, .inr hop⟩
  | store _ _ _ _ => rfl

/-- A register that is neither the target nor the program counter is left alone. -/
theorem NextBy.x_other {i : Instr} {s t : State} (h : NextBy i s t) {r : RegIdx} (hrt : r ≠ i.rt)
    (hpc : r ≠ 15) : t.x r = s.x r := by
  rw [← x_advancePc_other s hpc]
  cases h with
  | advanced _ => rfl
  | halt _ _ => rfl
  | arithmetic _ _ => exact x_commitArithmetic_other _ s hrt
  | load _ _ _ => exact x_writeReg_other _ _ hrt
  | store _ _ _ _ => rfl

/-- The unused slot of register 0 is never written. -/
theorem NextBy.slot0 {i : Instr} {s t : State} (h : NextBy i s t) : t.regs[0] = s.regs[0] := by
  cases h <;> simp

/-- The memory stays, or it is the memory after a successful write. -/
theorem NextBy.mem {i : Instr} {s t : State} (h : NextBy i s t) :
    t.mem = s.mem ∨ ∃ a w, s.mem.write a w = some t.mem := by
  cases h with
  | store _ _ m hm => exact .inr ⟨_, _, hm⟩
  | _ => simp

theorem NextBy.mem_size {i : Instr} {s t : State} (h : NextBy i s t) : t.mem.size = s.mem.size := by
  rcases h.mem with e | ⟨a, w, hw⟩
  · rw [e]
  · exact (write_some hw).2.1

theorem NextBy.mem_wf {i : Instr} {s t : State} (h : NextBy i s t) (hwf : s.mem.wf) : t.mem.wf := by
  rcases h.mem with e | ⟨a, w, hw⟩
  · rwa [e]
  · obtain ⟨-, -, -, -, hkeep⟩ := write_some hw
    exact hkeep hwf

/-! #### The step -/

theorem step_of_fetch {s : State} {w : Word} (h : fetch s = some w) :
    step s = exec (decode w) s := by
  simp only [step, h]

theorem step_of_fetch_none {s : State} (h : fetch s = none) :
    step s = .fault (.memFault s.pc s) := by
  simp only [step, h, memFault]

/-- A step with a next state went one of the ways of the instruction it fetched. -/
theorem step_nextBy {s t : State} (h : step s = .next t) : ∃ w, NextBy (decode w) s t := by
  obtain ⟨w, -, he⟩ := step_next h
  exact ⟨w, exec_next he⟩

theorem step_nextBy_of_fetch {s t : State} {w : Word} (hw : fetch s = some w)
    (h : step s = .next t) : NextBy (decode w) s t :=
  exec_next ((step_of_fetch hw).symm.trans h)

/-- The state at a fault: unchanged by a faulting fetch, else advanced (60_exceptions.md R224). -/
theorem step_fault_left {s l : State} {a : Int} (h : step s = .fault (.memFault a l)) :
    l = s ∨ l = advancePc s := by
  cases hf : fetch s with
  | none =>
    rw [step_of_fetch_none hf] at h
    cases h
    exact .inl rfl
  | some w =>
    rw [step_of_fetch hf] at h
    obtain ⟨-, -, -, -, hl⟩ := exec_fault h
    exact .inr hl

/-- What every step keeps holds in every state reached. -/
theorem reaches_of_step {P : State → Prop} (hstep : ∀ t u, P t → step t = .next u → P u)
    {s t : State} (hs : P s) (h : Reaches s t) : P t := by
  induction h with
  | refl => exact hs
  | tail t u _ last ih => exact hstep t u ih last

/-! #### States with the same registers and memory

An instruction reads `flags` in its predicate only and `halted` never. Two states that share registers
and memory are kept together by every operation, so one argument serves both registers. -/

/-- The same registers and memory; the same flags where `F` holds, the same halted bit where `H`. -/
structure Twin (F H : Prop) (s u : State) : Prop where
  regs : u.regs = s.regs
  mem : u.mem = s.mem
  flags : F → u.flags = s.flags
  halted : H → u.halted = s.halted

/-- Two outcomes of one kind, a fault at one address, their states twins. -/
inductive TwinOutcomes (F H : Prop) : Result → Result → Prop where
  | next {t u : State} (h : Twin F H t u) : TwinOutcomes F H (.next t) (.next u)
  | fault {l k : State} (a : Int) (h : Twin F H l k) :
      TwinOutcomes F H (.fault (.memFault a l)) (.fault (.memFault a k))

namespace Twin

variable {F H : Prop} {s u : State}

theorem writeReg (h : Twin F H s u) (i : RegIdx) (w : Word) :
    Twin F H (writeReg s i w) (writeReg u i w) where
  regs := by simp only [Machine.writeReg]; split <;> simp [h.regs]
  mem := by simp [h.mem]
  flags hf := by simp [h.flags hf]
  halted hh := by simp [h.halted hh]

theorem readReg (h : Twin F H s u) (i : RegIdx) : readReg u i = readReg s i := readReg_congr h.regs i

theorem x (h : Twin F H s u) (i : RegIdx) : u.x i = s.x i := congrArg signed32 (h.readReg i)

theorem advancePc (h : Twin F H s u) : Twin F H (advancePc s) (advancePc u) := by
  unfold Machine.advancePc
  rw [h.readReg]
  exact h.writeReg _ _

theorem withFlags (h : Twin F H s u) (f : Mask) : Twin F H (s.withFlags f) (u.withFlags f) :=
  ⟨h.regs, h.mem, fun _ => rfl, h.halted⟩

theorem withHalted (h : Twin F H s u) (b : Bool) : Twin F H (s.withHalted b) (u.withHalted b) :=
  ⟨h.regs, h.mem, h.flags, fun _ => rfl⟩

theorem withMem (h : Twin F H s u) (m : Memory) : Twin F H (s.withMem m) (u.withMem m) :=
  ⟨h.regs, rfl, h.flags, h.halted⟩

theorem aluOf (h : Twin F H s u) (op : Op) (rs1 rs2 : RegIdx) (off : Int) :
    aluOf op u rs1 rs2 off = aluOf op s rs1 rs2 off := by
  simp only [Machine.aluOf, leftOperand, rightOperand, h.x]

theorem predicated (h : Twin F H s u) {c : Mask} (hc : satisfied u.flags c = satisfied s.flags c)
    {r r' : Result} (hr : TwinOutcomes F H r r') :
    TwinOutcomes F H (predicated c s r) (predicated c u r') := by
  unfold Machine.predicated
  rw [hc]
  split
  · exact hr
  · exact .next h.advancePc

theorem arithmeticCycle (h : Twin F H s u) (op : Op) {c : Mask} (rt rs1 rs2 : RegIdx) (off : Int)
    (hc : satisfied u.flags c = satisfied s.flags c) :
    TwinOutcomes F H (arithmeticCycle op c rt rs1 rs2 off s) (arithmeticCycle op c rt rs1 rs2 off u) := by
  unfold Machine.arithmeticCycle commitArithmetic
  rw [h.aluOf]
  exact h.predicated hc (.next ((h.advancePc.writeReg _ _).withFlags _))

theorem commitLoad (h : Twin F H s u) (ea : Int) (rt : RegIdx) :
    TwinOutcomes F H (commitLoad ea rt s) (commitLoad ea rt u) := by
  unfold Machine.commitLoad
  rw [h.mem]
  split
  · exact .next (h.advancePc.writeReg _ _)
  · exact .fault _ h.advancePc

theorem commitStore (h : Twin F H s u) (ea : Int) (rt : RegIdx) :
    TwinOutcomes F H (commitStore ea rt s) (commitStore ea rt u) := by
  unfold Machine.commitStore
  rw [h.mem, h.advancePc.readReg]
  split
  · exact .next (h.advancePc.withMem _)
  · exact .fault _ h.advancePc

/-- Twins whose flags pass an instruction's predicate alike have twin outcomes. -/
theorem exec (h : Twin F H s u) (i : Instr)
    (hc : satisfied u.flags i.cond = satisfied s.flags i.cond) :
    TwinOutcomes F H (exec i s) (exec i u) := by
  cases i with
  | halt => exact h.predicated hc (.next (h.advancePc.withHalted true))
  | nop => exact h.predicated hc (.next h.advancePc)
  | add => exact h.arithmeticCycle .add _ _ _ _ hc
  | sub => exact h.arithmeticCycle .sub _ _ _ _ hc
  | mul => exact h.arithmeticCycle .mul _ _ _ _ hc
  | div => exact h.arithmeticCycle .div _ _ _ _ hc
  | load c rt rs1 rs2 off =>
    have hea : loadAddress u rs1 rs2 off = loadAddress s rs1 rs2 off :=
      congrArg AluOut.result (h.aluOf ..)
    simp only [Machine.exec, execLoad, hea]
    exact h.predicated hc (h.commitLoad _ _)
  | store c rt rs1 rs2 off =>
    have hea : storeAddress u rs1 rs2 off = storeAddress s rs1 rs2 off :=
      congrArg AluOut.result (h.aluOf ..)
    simp only [Machine.exec, execStore, hea]
    exact h.predicated hc (h.commitStore _ _)

/-- Twins with the same flags have twin steps. -/
theorem step (h : Twin True H s u) : TwinOutcomes True H (step s) (step u) := by
  have hpc : u.pc = s.pc := h.x pcReg
  have hfetch : fetch u = fetch s := by rw [fetch, fetch, h.mem, hpc]
  cases hs : fetch s with
  | none =>
    rw [step_of_fetch_none hs, step_of_fetch_none (hfetch.trans hs), hpc]
    exact .fault _ h
  | some w =>
    rw [step_of_fetch hs, step_of_fetch (hfetch.trans hs)]
    exact h.exec _ (by rw [h.flags trivial])

theorem eq_withFlags (h : Twin False True s u) : u = s.withFlags u.flags :=
  state_ext h.regs rfl (h.halted trivial) h.mem

theorem eq_withHalted (h : Twin True False s u) : u = s.withHalted u.halted :=
  state_ext h.regs (h.flags trivial) rfl h.mem

end Twin

theorem twin_withFlags (s : State) (f : Mask) : Twin False True s (s.withFlags f) :=
  ⟨rfl, rfl, False.elim, fun _ => rfl⟩

theorem twin_withHalted (s : State) (b : Bool) : Twin True False s (s.withHalted b) :=
  ⟨rfl, rfl, fun _ => rfl, False.elim⟩

/-- Where a twin is its partner with one field set, so are the states of twin outcomes. -/
theorem TwinOutcomes.states_eq {F H : Prop} {α : Type} {upd : State → α → State} {o p : Result}
    (h : TwinOutcomes F H o p) (hupd : ∀ s u, Twin F H s u → ∃ v, u = upd s v) :
    (∀ t, o = .next t → ∃ v, p = .next (upd t v)) ∧
      (∀ a l, o = .fault (.memFault a l) → ∃ v, p = .fault (.memFault a (upd l v))) := by
  cases h with
  | next h =>
    obtain ⟨v, rfl⟩ := hupd _ _ h
    exact ⟨fun t ht => by cases ht; exact ⟨v, rfl⟩, nofun⟩
  | fault a h =>
    obtain ⟨v, rfl⟩ := hupd _ _ h
    exact ⟨nofun, fun b l hl => by cases hl; exact ⟨v, rfl⟩⟩

theorem TwinOutcomes.sameButFlags {o p : Result} (h : TwinOutcomes False True o p) :
    SameButFlags o p :=
  h.states_eq fun _ _ hsu => ⟨_, hsu.eq_withFlags⟩

theorem TwinOutcomes.sameButHalted {o p : Result} (h : TwinOutcomes True False o p) :
    SameButHalted o p :=
  h.states_eq fun _ _ hsu => ⟨_, hsu.eq_withHalted⟩

/-! #### The invariant and the launch -/

/-- A change of the program counter keeps the invariant. -/
theorem inv_advancePc {s : State} (h : s.inv) : (advancePc s).inv := by
  obtain ⟨hmem, hslot, hflags⟩ := h
  exact ⟨by rwa [advancePc_mem], by rwa [advancePc_slot0], by rwa [advancePc_flags]⟩

/-- Exactly one of M, Z, P, V: the reachable flags but ALWAYS (10_state.md R32). -/
abbrev oneFlag (f : Mask) : Prop := f = 1#4 ∨ f = 2#4 ∨ f = 4#4 ∨ f = 8#4

theorem NextBy.flags_kept_or_one {i : Instr} {s t : State} (h : NextBy i s t) :
    t.flags = s.flags ∨ oneFlag t.flags := by
  rw [h.flags]
  split
  · exact .inr (aluFlag_mask_cases _)
  · exact .inl rfl

theorem NextBy.inv {i : Instr} {s t : State} (h : NextBy i s t) (hs : s.inv) : t.inv := by
  obtain ⟨hmem, hslot, hflags⟩ := hs
  refine ⟨h.mem_wf hmem, h.slot0.trans hslot, ?_⟩
  rcases h.flags_kept_or_one with hkept | hone
  · rwa [hkept]
  · exact .inr hone

theorem launch_flags (start : Int) (s : State) : (launch start s).flags = s.flags := by
  rw [launch, writeReg_flags, withHalted_flags]

theorem launch_halted (start : Int) (s : State) : (launch start s).halted = false := by
  rw [launch, writeReg_halted, withHalted_halted]

theorem launch_mem (start : Int) (s : State) : (launch start s).mem = s.mem := by
  rw [launch, writeReg_mem, withHalted_mem]

theorem inv_launch (start : Int) {s : State} (h : s.inv) : (launch start s).inv := by
  obtain ⟨hmem, hslot, hflags⟩ := h
  refine ⟨by rwa [launch_mem], ?_, by rwa [launch_flags]⟩
  rw [launch, writeReg_slot0, withHalted_regs, hslot]

theorem inv_construct {m : Memory} (h : m.wf) : (State.construct m).inv := ⟨h, rfl, .inl rfl⟩

theorem runLoop_of_halted (fuel : Nat) {s : State} (h : s.halted = true) :
    runLoop fuel s = .finished s := by
  unfold runLoop
  rw [if_pos h]

/-- A constructed core reads 0 in every register. -/
theorem x_construct (m : Memory) (r : RegIdx) : (State.construct m).x r = 0 := by
  have : readReg (State.construct m) r = 0#32 := by simp [readReg, State.construct]
  rw [State.x, this]
  rfl

end Sys2Proof.Machine

/-! ### PROOFS. The statements about the state, 10_state.md. -/

namespace Sys2Proof.Proofs

open Sys2Proof.Machine

/-- Settles O45: each way an instruction can go keeps the three parts, and a fault leaves the state as
it was or advanced. -/
theorem stepKeepsTheInvariant : Obligations.StepKeepsTheInvariant := by
  intro s hs
  constructor
  · intro t ht
    obtain ⟨w, hw⟩ := step_nextBy ht
    exact hw.inv hs
  · intro a l hl
    rcases step_fault_left hl with rfl | rfl
    · exact hs
    · exact inv_advancePc hs

/-- Settles O9: register 0 as a target is a dropped write, and no arithmetic instruction and no LOAD
inside the memory faults. -/
theorem registerZeroIsHardWired : Obligations.RegisterZeroIsHardWired := by
  refine ⟨x_zero, fun s v => writeReg_zero s _, ?_, ?_, fun i s _ _ hin => exec_has_next (.inr hin)⟩
  · intro i s t hrt ht r hr
    by_cases h0 : r = 0
    · rw [h0, x_zero, x_zero]
    · exact (exec_next ht).x_other (hrt ▸ h0) hr
  · intro i s _ hop
    exact exec_has_next (.inl (by rcases hop with h | h | h | h <;> simp [h]))

/-- Settles O25: ADD reads register 15 before the advance, STORE after it. -/
theorem programCounterAsOperand : Obligations.ProgramCounterAsOperand := by
  constructor
  · intro s cond rt off hx hrt lo hi
    have hleft : s.x 15 + (s.x 0 + off) = s.pc + off := by rw [x_zero, zero_add]; rfl
    have hright : s.x 0 + (s.x 15 + off) = s.pc + off := by rw [x_zero, zero_add]; rfl
    exact ⟨exec_add_in_range hx hrt hleft ⟨lo, hi⟩, exec_add_in_range hx hrt hright ⟨lo, hi⟩⟩
  · intro s cond off hx lo hin hi
    have haddr : address s 0 0 off = off := by
      rw [address, x_zero, zero_add, zero_add, answer, if_pos (by omega)]
    obtain ⟨m, hm, he⟩ := exec_store_executed (rt := 15) hx haddr ⟨lo, hin⟩
    exact ⟨_, _, he, read_of_write_same hm, pc_advancePc_eq_nextPc s⟩

/-- Settles O34: an executed arithmetic instruction or LOAD with target 15 leaves there what it
commits; any other way leaves the increment. -/
theorem programCounterAfterACycle : Obligations.ProgramCounterAfterACycle := by
  intro s t w hw ht
  rw [step_of_fetch hw] at ht
  refine ⟨?_, ?_, fun hno => ⟨fun hlt => ?_, fun ha => ?_⟩⟩
  · rintro ⟨hx, hrt, hop⟩
    rw [exec_arithmetic_executed hop hx, hrt] at ht
    cases ht
    exact x_commitArithmetic_target _ _ _ s pcReg_ne_zero
  · rintro ⟨hx, hrt, hop⟩
    rw [exec_load_next hx hop ht, hrt]
    exact x_writeReg_same _ _ pcReg_ne_zero
  · exact ((exec_next ht).pc_of_not_committed hno).trans (pc_advancePc_of_lt hlt)
  · rw [(exec_next ht).flags, if_neg fun h => ha h.1]

/-- Settles O35: nothing but the increment reaches the program counter, and it wraps. -/
theorem programCounterWrapsAtTheTop : Obligations.ProgramCounterWrapsAtTheTop := by
  intro i s t ht htop hno
  rw [(exec_next ht).pc_of_not_committed hno, pc_advancePc_of_top htop]

/-- Settles O36, by the flags of each way an instruction can go. -/
theorem flagsWrittenOnlyByArithmetic : Obligations.FlagsWrittenOnlyByArithmetic := by
  refine ⟨fun s t w hw ht => ?_, fun s i v => writeReg_flags s i _,
    fun s start => launch_flags start s⟩
  have hflags := (step_nextBy_of_fetch hw ht).flags
  exact ⟨fun h => hflags.trans (if_pos h), fun h => hflags.trans (if_neg h)⟩

/-- Settles O37: a state and the same state with other flags are twins. -/
theorem flagsReadOnlyByThePredicate : Obligations.FlagsReadOnlyByThePredicate := by
  intro i s f hf
  have hsat : satisfied f i.cond = satisfied s.flags i.cond := by
    rw [Bool.eq_iff_iff, satisfied_iff, satisfied_iff, ne_eq, ne_eq, hf]
  exact ((twin_withFlags s f).exec i hsat).sameButFlags

/-- Settles O38: a HALT alone sets the bit, and a state and the same state with the bit changed are
twins. -/
theorem haltedBitRule : Obligations.HaltedBitRule := by
  refine ⟨fun s t w hw ht => (step_nextBy_of_fetch hw ht).halted_iff, ?_, rfl,
    fun s start => launch_halted start s, fun s b => (twin_withHalted s b).step.sameButHalted,
    fun s fuel h => runLoop_of_halted fuel h⟩
  intro s a l hl
  rcases step_fault_left hl with rfl | rfl
  · rfl
  · exact advancePc_halted s

/-- Settles O49: an arithmetic commit writes one flag, and any other step keeps the flags. -/
theorem oneFlagForEverAfterArithmetic : Obligations.OneFlagForEverAfterArithmetic := by
  constructor
  · intro i s t hop hx ht
    rw [(exec_next ht).flags, if_pos ⟨hop, hx⟩]
    exact aluFlag_mask_cases _
  · intro s t hreach hs
    refine reaches_of_step (P := fun u => oneFlag u.flags) (fun t u ht hu => ?_) hs hreach
    obtain ⟨w, hw⟩ := step_nextBy hu
    rcases hw.flags_kept_or_one with hkept | hone
    · rwa [hkept]
    · exact hone

/-- Settles O50, by induction on the steps: the launch meets the invariant, and each step keeps it and
the size of the memory. -/
theorem reachableStatesMeetTheInvariant : Obligations.ReachableStatesMeetTheInvariant := by
  intro m start t hm hreach
  refine reaches_of_step (P := fun u => u.inv ∧ u.mem.size = m.size) ?_
    ⟨inv_launch start (inv_construct hm), by rw [launch_mem, State.construct]⟩ hreach
  rintro t u ⟨hinv, hsize⟩ hu
  obtain ⟨w, hw⟩ := step_nextBy hu
  exact ⟨hw.inv hinv, hw.mem_size.trans hsize⟩

/-- Settles O48: the register file of a constructed core is all zeros, the other fields are its
arguments and constants. -/
theorem resetState : Obligations.ResetState :=
  ⟨x_construct, fun _ => ⟨rfl, rfl, rfl⟩, rfl⟩

end Sys2Proof.Proofs

end

/-! ### SUPPORT. The words of memory a cycle writes, and what a canonical memory lists. -/

section

open Sys2Proof.Claims

namespace Sys2Proof.Machine

/-! #### The word a STORE writes -/

/-- A word of memory differs after an instruction only where an executed STORE wrote it (20_memory.md
R53). -/
theorem NextBy.store_of_word_ne {i : Instr} {s t : State} (h : NextBy i s t) {a : Nat}
    (hne : t.mem.word a ≠ s.mem.word a) :
    i.op = .store ∧ Executes s i.cond ∧ (a : Int) = address s i.rs1 i.rs2 i.off := by
  cases h with
  | store hx hop m hm =>
    obtain ⟨hin, -, -, hother, -⟩ := write_some hm
    have ha : a = (address s i.rs1 i.rs2 i.off).toNat := not_imp_comm.mp (hother a) hne
    exact ⟨hop, hx, by rw [ha, Int.toNat_of_nonneg hin.1]⟩
  | _ => simp at hne

/-- The only next state of an executed STORE. -/
theorem exec_store_next {s t : State} {cond : Mask} {rt rs1 rs2 : RegIdx} {off : Int}
    (hx : Executes s cond) (h : exec (.store cond rt rs1 rs2 off) s = .next t) :
    ∃ m, s.mem.write (address s rs1 rs2 off) (readReg (advancePc s) rt) = some m ∧
      t = (advancePc s).withMem m := by
  cases exec_next h with
  | advanced hskip => exact absurd hskip (not_or.mpr ⟨not_not.mpr hx, nofun⟩)
  | halt _ hop => cases hop
  | arithmetic _ hop => simp [Arithmetic, Instr.op] at hop
  | load _ hop _ => cases hop
  | store _ _ m hm => exact ⟨m, hm, rfl⟩

/-- What every register reads after the increment: register 15 the address of the next instruction. -/
theorem x_advancePc (s : State) (r : RegIdx) :
    (advancePc s).x r = if r = 15 then nextPc s else s.x r := by
  split
  · next h => rw [h]; exact pc_advancePc_eq_nextPc s
  · next h => exact x_advancePc_other s h

/-! #### The cells of a canonical memory -/

theorem lookup_eq_of_mem {l : List (Nat × Word)} (h : l.Pairwise (fun c d => c.1 < d.1))
    {c : Nat × Word} (hc : c ∈ l) : Memory.lookup l c.1 = c.2 := by
  induction h with
  | nil => cases hc
  | cons hd _ ih =>
    rcases List.mem_cons.mp hc with rfl | hc
    · exact if_pos rfl
    · exact (if_neg (hd c hc).ne).trans (ih hc)

theorem mem_of_lookup_ne_blank {l : List (Nat × Word)} {a : Nat}
    (h : Memory.lookup l a ≠ Config.blankWord) : (a, Memory.lookup l a) ∈ l := by
  induction l with
  | nil => exact absurd rfl h
  | cons d rest ih =>
    by_cases hd : d.1 = a
    · simp [Memory.lookup, ← hd]
    · simp only [Memory.lookup, if_neg hd] at h ⊢
      exact List.mem_cons_of_mem _ (ih h)

/-- Cells in rising order are fixed by their members. -/
theorem cells_eq_of_mem_iff {l l' : List (Nat × Word)} (h : l.Pairwise (fun c d => c.1 < d.1))
    (h' : l'.Pairwise (fun c d => c.1 < d.1)) (hmem : ∀ c, c ∈ l ↔ c ∈ l') : l = l' := by
  have : Std.Irrefl (fun c d : Nat × Word => c.1 < d.1) := ⟨fun c => lt_irrefl c.1⟩
  have : Std.Antisymm (fun c d : Nat × Word => c.1 < d.1) :=
    ⟨fun _ _ hcd hdc => absurd hcd hdc.asymm⟩
  exact h.eq_of_mem_iff h' hmem

/-- A canonical memory lists exactly the words it reads that are not the default. -/
theorem Memory.wf.mem_cells_iff {m : Memory} (h : m.wf) (c : Nat × Word) :
    c ∈ m.cells ↔ c.2 ≠ Config.blankWord ∧ m.read c.1 = some c.2 := by
  obtain ⟨-, hsorted, hcells⟩ := h
  constructor
  · intro hc
    obtain ⟨hlt, hne⟩ := hcells c hc
    have hin : m.has c.1 := ⟨by omega, by omega⟩
    exact ⟨hne, (read_of_has hin).trans (congrArg some (lookup_eq_of_mem hsorted hc))⟩
  · rintro ⟨hne, hread⟩
    have hin : m.has c.1 := not_imp_comm.mp read_of_not_has (by simp [hread])
    have hword : Memory.lookup m.cells c.1 = c.2 :=
      Option.some.inj ((read_of_has hin).symm.trans hread)
    have hmem := mem_of_lookup_ne_blank (hword ▸ hne)
    rwa [hword] at hmem

end Sys2Proof.Machine

/-! ### PROOFS. The statements about memory, 20_memory.md. -/

namespace Sys2Proof.Proofs

open Sys2Proof.Machine

/-- Settles O39: of the ways an instruction can go, only an executed STORE writes the memory. -/
theorem memoryWrittenOnlyByStore : Obligations.MemoryWrittenOnlyByStore := by
  intro s t w hw ht
  have h := step_nextBy_of_fetch hw ht
  exact ⟨h.mem_size, fun _ hne => h.store_of_word_ne hne⟩

/-- Settles O40: the fetch reads back the word the STORE wrote, which is what its register holds after
the advance. -/
theorem storeIsSeenByTheNextFetch : Obligations.StoreIsSeenByTheNextFetch := by
  intro s t u cond rt rs1 rs2 off hx ht hmem hpc
  obtain ⟨m, hm, rfl⟩ := exec_store_next hx ht
  have hfetch : fetch u = some (readReg (advancePc s) rt) := by
    rw [fetch, hpc, hmem, withMem_mem, read_of_write_same hm]
  exact ⟨_, hfetch, x_advancePc s rt, step_of_fetch hfetch⟩

/-- Settles O43, by what a read and a write do inside and outside the memory. -/
theorem memoryReadAfterWrite : Obligations.MemoryReadAfterWrite := by
  intro m a w
  constructor
  · intro hout
    have hnot : ¬ m.has a := not_has_iff.mpr hout
    exact ⟨read_of_not_has hnot, write_of_not_has w hnot⟩
  · intro lo hi
    obtain ⟨m', hm⟩ := write_of_has w ⟨lo, hi⟩
    obtain ⟨-, hsize, -, -, hwf⟩ := write_some hm
    exact ⟨m', hm, read_of_write_same hm, hsize, fun _ hb => read_of_write_other hm hb, hwf⟩

/-- Settles O44: the reads fix which cells are listed, and the rising order fixes the list. -/
theorem canonicalMemoriesReadingAlikeAreEqual :
    Obligations.CanonicalMemoriesReadingAlikeAreEqual := by
  intro m m' h h' hsize hread
  have hmem : ∀ c, c ∈ m.cells ↔ c ∈ m'.cells := fun c => by
    rw [h.mem_cells_iff c, h'.mem_cells_iff c, hread]
  obtain ⟨-, hrising, -⟩ := h
  obtain ⟨-, hrising', -⟩ := h'
  have hcells := cells_eq_of_mem_iff hrising hrising' hmem
  cases m
  cases m'
  exact congrArg₂ Memory.mk hsize hcells

end Sys2Proof.Proofs

end

/-! ### SUPPORT. The decoder output by output, and which words decode alike. -/

section

namespace Sys2Proof

/-! #### The outputs of the decoder -/

@[simp] theorem decode_op (w : Word) : (decode w).op = opOfCode (opfField w) := ofFields_op ..

@[simp] theorem decode_cond (w : Word) : (decode w).cond = condField w := ofFields_cond ..

@[simp] theorem decode_rt (w : Word) : (decode w).rt = rtField w := ofFields_rt ..

@[simp] theorem decode_rs1 (w : Word) : (decode w).rs1 = rs1Field w := ofFields_rs1 ..

@[simp] theorem decode_rs2 (w : Word) : (decode w).rs2 = rs2Field w := ofFields_rs2 ..

@[simp] theorem decode_off (w : Word) : (decode w).off = offField w := ofFields_off ..

/-- Every word decodes to an instruction that has an encoding (40_decoder.md R103). -/
theorem decode_wf (w : Word) : (decode w).wf := by
  rw [Instr.wf, decode_off]
  exact offField_bounds w

/-! #### The opcode map -/

/-- The map inverts the numbering of the operations on the codes below 8. -/
theorem codeOfOp_opOfCode {opf : BitVec 5} (h : opf.toNat < 8) : codeOfOp (opOfCode opf) = opf := by
  have hall : ∀ b : BitVec 5, b.toNat < 8 → codeOfOp (opOfCode b) = b := by decide
  exact hall opf h

/-- An operation other than NOP has one code. -/
theorem opOfCode_eq_iff {op : Op} (hop : op ≠ .nop) (opf : BitVec 5) :
    opOfCode opf = op ↔ opf = codeOfOp op := by
  constructor
  · rintro rfl
    exact (codeOfOp_opOfCode (not_le.mp (mt opOfCode_of_ge hop))).symm
  · rintro rfl
    exact opOfCode_codeOfOp op

/-- NOP has code 4 and every unrecognised code (30_encoding.md R74). -/
theorem opOfCode_eq_nop_iff (opf : BitVec 5) :
    opOfCode opf = .nop ↔ opf = codeOfOp .nop ∨ 8 ≤ opf.toNat := by
  constructor
  · intro h
    refine (Nat.lt_or_ge opf.toNat 8).imp_left fun hlt => ?_
    rw [← h, codeOfOp_opOfCode hlt]
  · rintro (rfl | hge)
    · exact opOfCode_codeOfOp .nop
    · exact opOfCode_of_ge hge

theorem opfField_eq_iff (w : Word) (opf : BitVec 5) :
    opfField w = opf ↔ w.toNat / 2 ^ 26 % 32 = opf.toNat := by
  rw [← BitVec.toNat_inj, opfField_toNat]
  rfl

/-- The words of an operation other than NOP, as arithmetic on their numbers. -/
theorem decode_op_eq_iff (op : Op) (hop : op ≠ .nop) (w : Word) :
    (decode w).op = op ↔ w.toNat / 2 ^ 26 % 32 = (codeOfOp op).toNat := by
  rw [decode_op, opOfCode_eq_iff hop, opfField_eq_iff]

theorem decode_op_eq_nop_iff (w : Word) :
    (decode w).op = .nop ↔ w.toNat / 2 ^ 26 % 32 = 4 ∨ 8 ≤ w.toNat / 2 ^ 26 % 32 := by
  rw [decode_op, opOfCode_eq_nop_iff, opfField_eq_iff, opfField_toNat]
  rfl

/-! #### Words that decode alike -/

/-- The decoder reads the operation and the low 26 bits, and nothing else. -/
theorem decode_congr {w v : Word} (hop : (decode w).op = (decode v).op)
    (hlow : w.toNat % 2 ^ 26 = v.toNat % 2 ^ 26) : decode w = decode v := by
  have hcond : condField w = condField v := by
    apply BitVec.eq_of_toNat_eq
    rw [condField_toNat, condField_toNat]
    omega
  have hrt : rtField w = rtField v := Fin.ext (by rw [rtField_val, rtField_val]; omega)
  have hrs1 : rs1Field w = rs1Field v := Fin.ext (by rw [rs1Field_val, rs1Field_val]; omega)
  have hrs2 : rs2Field w = rs2Field v := Fin.ext (by rw [rs2Field_val, rs2Field_val]; omega)
  have hlow10 : w.toNat % 1024 = v.toNat % 1024 := by omega
  have hoff : offField w = offField v := by rw [offField_eq, offField_eq, hlow10]
  rw [decode_op, decode_op] at hop
  rw [decode, decode, hop, hcond, hrt, hrs1, hrs2, hoff]

/-- Bit 31 takes no part in decoding (30_encoding.md R72). -/
theorem decode_congr_of_low31 {w v : Word} (h : w.toNat % 2 ^ 31 = v.toNat % 2 ^ 31) :
    decode w = decode v := by
  have hopf : opfField w = opfField v := by
    rw [opfField_eq_iff, opfField_toNat]
    omega
  exact decode_congr (by rw [decode_op, decode_op, hopf]) (by omega)

/-- A word laid out from its fields has bit 31 clear (30_encoding.md R72). -/
theorem wordOfFields_getLsbD_31 (opf : BitVec 5) (cond : Mask) (rt rs1 rs2 : RegIdx)
    (off : BitVec 10) : (wordOfFields opf cond rt rs1 rs2 off).getLsbD 31 = false := by
  rw [wordOfFields, BitVec.getLsbD_append]
  rfl

end Sys2Proof

namespace Sys2Proof.Machine

/-! #### HALT and NOP -/

/-- A HALT's outcome is said by its predicate and the state alone. -/
theorem exec_halt (cond : Mask) (rt rs1 rs2 : RegIdx) (off : Int) (s : State) :
    exec (.halt cond rt rs1 rs2 off) s = predicated cond s (.next ((advancePc s).withHalted true)) :=
  rfl

/-- Executed or skipped, a NOP advances the program counter and does nothing else. -/
theorem exec_nop (cond : Mask) (rt rs1 rs2 : RegIdx) (off : Int) (s : State) :
    exec (.nop cond rt rs1 rs2 off) s = .next (advancePc s) :=
  ite_self _

end Sys2Proof.Machine

/-! ### PROOFS. The statements about the encoding, 30_encoding.md. -/

namespace Sys2Proof.Proofs

open Sys2Proof.Machine

/-- Settles O4, output by output: each is a field of the word, and each operation but NOP has one
code. -/
theorem decodedFieldsStandWhereTheFormatSays :
    Obligations.DecodedFieldsStandWhereTheFormatSays := by
  intro w
  refine ⟨decode_wf w, ?cond, ?rt, ?rs1, ?rs2, ?off,
    decode_op_eq_iff .halt nofun w, decode_op_eq_iff .load nofun w,
    decode_op_eq_iff .store nofun w, decode_op_eq_iff .add nofun w, decode_op_eq_iff .sub nofun w,
    decode_op_eq_iff .mul nofun w, decode_op_eq_iff .div nofun w, decode_op_eq_nop_iff w⟩
  case cond => rw [decode_cond]; exact condField_toNat w
  case rt => rw [decode_rt]; exact rtField_val w
  case rs1 => rw [decode_rs1]; exact rs1Field_val w
  case rs2 => rw [decode_rs2]; exact rs2Field_val w
  case off =>
    rw [decode_off, offField_eq]
    split
    · rw [sub_zero]
    · rfl

/-- Settles O5: flipping bit 31 keeps the low 31 bits, the encoder writes that bit as 0, and code 4 and
the codes from 8 on are one operation. -/
theorem reservedBitAndUnrecognisedCodes : Obligations.ReservedBitAndUnrecognisedCodes := by
  refine ⟨fun w => decode_congr_of_low31 ?_, fun i => wordOfFields_getLsbD_31 .., ?_⟩
  · rw [BitVec.toNat_xor, Nat.xor_mod_two_pow]
    exact Nat.xor_zero _
  · intro w v hw hv hlow
    have hwnop : (decode w).op = .nop := (decode_op_eq_nop_iff w).mpr (.inr hw)
    have hvnop : (decode v).op = .nop := (decode_op_eq_nop_iff v).mpr (.inl hv)
    exact decode_congr (hwnop.trans hvnop.symm) hlow

/-- Settles O30: neither outcome mentions a register field or the offset, and a NOP's not its
predicate. -/
theorem controlIgnoresUnusedFields : Obligations.ControlIgnoresUnusedFields := by
  intro s c d rt rs1 rs2 ut us1 us2 j k
  constructor
  · rw [exec_halt, exec_halt]
  · rw [exec_nop, exec_nop]

end Sys2Proof.Proofs

end

/-! ### SUPPORT. The encoder, a word of a decoded instruction, and the canonical words. -/

section

namespace Sys2Proof

/-! #### Decoding an encoded instruction -/

/-- Putting an instruction's fields together again gives it back (40_decoder.md R102). -/
@[simp] theorem ofFields_fields (i : Instr) :
    Instr.ofFields i.op i.cond i.rt i.rs1 i.rs2 i.off = i := by
  cases i with
  | halt => exact Laws.FieldsRebuild.halt ..
  | load => exact Laws.FieldsRebuild.load ..
  | store => exact Laws.FieldsRebuild.store ..
  | add => exact Laws.FieldsRebuild.add ..
  | nop => exact Laws.FieldsRebuild.nop ..
  | sub => exact Laws.FieldsRebuild.sub ..
  | mul => exact Laws.FieldsRebuild.mul ..
  | div => exact Laws.FieldsRebuild.div ..

/-- Every field is read back where the encoder wrote it; the offset needs its bound (40_decoder.md
R105). -/
theorem decode_encode {i : Instr} (h : i.wf) : decode (encode i) = i := by
  obtain ⟨hlo, hhi⟩ := h
  have hop : opOfCode (opfField (encode i)) = i.op := by simp [encode]
  have hoff : offField (encode i) = i.off := by
    rw [encode, offField_wordOfFields, toInt_ofInt_off hlo hhi]
  rw [decode, hop, hoff]
  simp [encode]

/-! #### The numbers of encoded instructions -/

/-- Every operation is numbered below 8 (30_encoding.md R73). -/
theorem codeOfOp_toNat_lt (op : Op) : (codeOfOp op).toNat < 8 := by cases op <;> decide

/-- An encoded instruction has bit 31 clear and a code below 8 (40_decoder.md R106). -/
theorem encode_toNat_lt (i : Instr) : (encode i).toNat < 2 ^ 29 := by
  have hcode := codeOfOp_toNat_lt i.op
  have hcond := i.cond.isLt
  have hoff := (BitVec.ofInt 10 i.off).isLt
  rw [encode, wordOfFields_toNat]
  omega

/-! #### Encoding a decoded instruction -/

/-- Encoding a decoded word keeps its low 26 bits and writes the code of its operation. -/
theorem encode_decode_toNat (w : Word) : (encode (decode w)).toNat =
    (codeOfOp (opOfCode (opfField w))).toNat * 2 ^ 26 + w.toNat % 2 ^ 26 := by
  have hoff : (BitVec.ofInt 10 (offField w)).toNat = w.toNat % 2 ^ 10 := by
    rw [offField, BitVec.ofInt_toInt, BitVec.extractLsb'_toNat, Nat.shiftRight_zero]
  rw [encode, wordOfFields_toNat, decode_op, decode_cond, decode_rt, decode_rs1, decode_rs2,
    decode_off, condField_toNat, rtField_val, rs1Field_val, rs2Field_val, hoff]
  omega

/-- With a code of 0 to 7 only bit 31 can change: it is cleared (40_decoder.md R106). -/
theorem encode_decode_toNat_of_le {w : Word} (h : w.toNat / 2 ^ 26 % 32 ≤ 7) :
    (encode (decode w)).toNat = w.toNat % 2 ^ 31 := by
  have hopf : (opfField w).toNat = w.toNat / 2 ^ 26 % 32 := opfField_toNat w
  rw [encode_decode_toNat, codeOfOp_opOfCode (by omega), hopf]
  omega

/-- An unrecognised code becomes 4, that of NOP (40_decoder.md R106). -/
theorem encode_decode_toNat_of_ge {w : Word} (h : 8 ≤ w.toNat / 2 ^ 26 % 32) :
    (encode (decode w)).toNat = 4 * 2 ^ 26 + w.toNat % 2 ^ 26 := by
  have hopf : (opfField w).toNat = w.toNat / 2 ^ 26 % 32 := opfField_toNat w
  rw [encode_decode_toNat, opOfCode_of_ge (by omega)]
  rfl

/-! #### The canonical words -/

/-- The words below 2^29 are those with bit 31 clear and a recognised code (40_decoder.md R106). -/
theorem toNat_lt_two_pow_29_iff (w : Word) :
    w.toNat < 2 ^ 29 ↔ w.getLsbD 31 = false ∧ w.toNat / 2 ^ 26 % 32 ≤ 7 := by
  have hmsb : w.getLsbD 31 = w.msb := (BitVec.msb_eq_getLsbD_last w).symm
  rw [hmsb, BitVec.msb_eq_false_iff_two_mul_lt]
  omega

/-- The words that encoding gives back after decoding are those below 2^29. -/
theorem encode_decode_eq_iff (w : Word) : encode (decode w) = w ↔ w.toNat < 2 ^ 29 := by
  constructor
  · intro h
    rw [← h]
    exact encode_toNat_lt (decode w)
  · intro h
    apply BitVec.eq_of_toNat_eq
    rw [encode_decode_toNat_of_le (by omega), Nat.mod_eq_of_lt (by omega)]

end Sys2Proof

/-! ### PROOFS. The statements about the decoder, 40_decoder.md. -/

namespace Sys2Proof.Proofs

open Sys2Proof.Machine

/-- Settles O2: decoding inverts the encoder, and a word below 2^29 is the encoding of what it decodes
to. -/
theorem decodeEncodeRoundTrip : Obligations.DecodeEncodeRoundTrip := by
  refine ⟨fun i => decode_encode, ?injective, fun i _ => encode_toNat_lt i,
    fun w hw => ⟨decode w, decode_wf w, (encode_decode_eq_iff w).mpr hw⟩⟩
  case injective =>
    intro i j hi hj h
    calc i = decode (encode i) := (decode_encode hi).symm
      _ = decode (encode j) := congrArg decode h
      _ = j := decode_encode hj

/-- Settles O3, by the number of the word that encoding a decoded word gives. -/
theorem encodeAfterDecodeCanonicalises : Obligations.EncodeAfterDecodeCanonicalises := fun w =>
  ⟨encode_decode_eq_iff w, toNat_lt_two_pow_29_iff w, encode_decode_toNat_of_le,
    encode_decode_toNat_of_ge⟩

end Sys2Proof.Proofs

end

/-! ### SUPPORT. What the ALU answers, in the words of the claims (41_alu.md R122). -/

section

open Sys2Proof.Claims

namespace Sys2Proof.Machine

/-! #### The exact value -/

/-- But for a division by zero there is an exact value, and for DIV it is the floor of the rational
quotient (41_alu.md R126). -/
theorem exactValue_eq_some_exact {op : Op} {a b : Int} (h : ¬ (op = .div ∧ b = 0)) :
    exactValue op a b = some (exact op a b) := by
  cases op with
  | div =>
    have hb : b ≠ 0 := fun hb => h ⟨rfl, hb⟩
    simp only [exactValue, if_neg hb, exact, floor_div_eq_fdiv a hb]
  | add | sub | mul | load | store | halt | nop => rfl

/-! #### The answer -/

theorem alu_div_zero (a : Int) : alu .div a 0 = { result := 0, flag := .overflow } :=
  alu_of_none rfl

theorem alu_of_exact_inRange {op : Op} {a b : Int} (h : ¬ (op = .div ∧ b = 0))
    (hr : inRange (exact op a b)) :
    alu op a b = { result := exact op a b, flag := classify (exact op a b) } :=
  alu_of_inRange (exactValue_eq_some_exact h) hr

/-- The two faults of 41_alu.md R122 have one answer. -/
theorem alu_of_fault {op : Op} {a b : Int}
    (h : (op = .div ∧ b = 0) ∨ ¬ inRange (exact op a b)) :
    alu op a b = { result := 0, flag := .overflow } := by
  by_cases hz : op = .div ∧ b = 0
  · obtain ⟨rfl, rfl⟩ := hz
    exact alu_div_zero a
  · exact alu_of_not_inRange (exactValue_eq_some_exact hz) (h.resolve_left hz)

/-! #### The mask of the answer's flag -/

theorem mask_eq_overflow_iff (f : AluFlag) : f.mask = 8#4 ↔ f = .overflow := by
  cases f <;> decide

/-- M, Z and P tell the sign of the classified value. -/
theorem mask_classify_iff (e : Int) :
    ((classify e).mask = 1#4 ↔ e < 0) ∧ ((classify e).mask = 2#4 ↔ e = 0) ∧
      ((classify e).mask = 4#4 ↔ 0 < e) := by
  rcases lt_trichotomy e 0 with h | rfl | h
  · simp [classify_neg h, AluFlag.mask, h, h.ne, h.le]
  · simp [classify_zero, AluFlag.mask]
  · simp [classify_pos h, AluFlag.mask, h, h.ne', h.le]

/-- V marks exactly the faults of 41_alu.md R122. -/
theorem alu_mask_eq_overflow_iff (op : Op) (a b : Int) :
    (alu op a b).flag.mask = 8#4 ↔ (op = .div ∧ b = 0) ∨ ¬ inRange (exact op a b) := by
  rw [mask_eq_overflow_iff]
  constructor
  · intro hv
    by_contra hf
    obtain ⟨hz, hr⟩ := not_or.mp hf
    rw [alu_of_exact_inRange hz (not_not.mp hr)] at hv
    exact classify_ne_overflow _ hv
  · intro hf
    rw [alu_of_fault hf]

/-- An answer without V is the exact value with its sign. -/
theorem alu_of_mask_ne_overflow {op : Op} {a b : Int} (h : (alu op a b).flag.mask ≠ 8#4) :
    alu op a b = { result := exact op a b, flag := classify (exact op a b) } := by
  rw [ne_eq, alu_mask_eq_overflow_iff, not_or, not_not] at h
  obtain ⟨hz, hr⟩ := h
  exact alu_of_exact_inRange hz hr

end Sys2Proof.Machine

/-! ### PROOFS. The statements about the ALU, 41_alu.md. -/

namespace Sys2Proof.Proofs

open Sys2Proof.Machine

/-- Settles O6, by whether the call is a fault of 41_alu.md R122 or has an exact value in the range. -/
theorem aluFlagTellsFaults : Obligations.AluFlagTellsFaults := by
  intro op a b
  obtain ⟨lo, hi⟩ := alu_result_inRange op a b
  refine ⟨aluFlag_mask_cases _, lo, hi, ?fault,
    fun hv => alu_result_of_overflow ((mask_eq_overflow_iff _).mp hv), fun hne => ?sign⟩
  case fault =>
    rw [alu_mask_eq_overflow_iff]
    exact or_congr_right (by omega)
  case sign =>
    rw [alu_of_mask_ne_overflow hne]
    exact ⟨rfl, mask_classify_iff _⟩

/-- Settles O7: the remainder is that of floor division. -/
theorem divisionRoundsDown : Obligations.DivisionRoundsDown := by
  intro a b
  constructor
  · rintro rfl
    simp [alu_div_zero, AluFlag.mask]
  · intro hb hne
    have hq : (alu .div a b).result = a.fdiv b := by
      rw [alu_of_mask_ne_overflow hne]
      exact floor_div_eq_fdiv a hb
    rw [hq]
    exact ⟨a.fmod b, fdiv_remainder a b⟩

end Sys2Proof.Proofs

end

/-! ### SUPPORT. What the host's put and get of a register do, 42_regfile.md R141, R142, R144. -/

section

namespace Sys2Proof.Machine

@[simp] theorem hostGet_zero (s : State) : hostGet s 0 = 0 := x_zero s

/-- An in-range value put in a register other than 0 is got back. -/
theorem hostGet_hostPut_same (s : State) {i : RegIdx} {v : Int} (h : i ≠ 0)
    (lo : -2147483648 ≤ v) (hi : v ≤ 2147483647) : hostGet (hostPut s i v) i = v := by
  rw [hostGet, hostPut, x_writeReg_same s _ h, signed32_bits32 lo hi]

theorem hostGet_hostPut_other (s : State) {i j : RegIdx} (v : Int) (h : j ≠ i) :
    hostGet (hostPut s i v) j = hostGet s j := x_writeReg_other s _ h

/-! #### The fields a host put leaves alone -/

@[simp] theorem hostPut_flags (s : State) (i v) : (hostPut s i v).flags = s.flags := writeReg_flags ..
@[simp] theorem hostPut_halted (s : State) (i v) : (hostPut s i v).halted = s.halted :=
  writeReg_halted ..
@[simp] theorem hostPut_mem (s : State) (i v) : (hostPut s i v).mem = s.mem := writeReg_mem ..

end Sys2Proof.Machine

/-! ### PROOFS. The statement about the register file, 42_regfile.md. -/

namespace Sys2Proof.Proofs

open Sys2Proof.Machine

/-- Settles O8: a host put is a register write of the narrowed value, and narrowing keeps an in-range
value. -/
theorem registerFileLaws : Obligations.RegisterFileLaws := by
  intro s i v lo hi
  refine ⟨hostGet_zero _, ?same, ?other, ?frame⟩
  case same => exact fun h => hostGet_hostPut_same s h lo hi
  case other => exact fun _ h => hostGet_hostPut_other s v h
  case frame => exact ⟨hostPut_flags s i v, hostPut_halted s i v, hostPut_mem s i v⟩

end Sys2Proof.Proofs

end

/-! ### SUPPORT. The cycle and the run: what passes the predicate, what a skipped instruction does,
what a step emits and when it stops, and how a run under fuel ends. -/

section

open Sys2Proof.Claims

namespace Sys2Proof.Machine

/-! #### The predicate test, 43_sequencer.md R159 -/

theorem satisfied_never (f : Mask) : satisfied f 0#4 = false := by simp [satisfied]

theorem satisfied_always_iff (f : Mask) : satisfied f 15#4 = true ↔ f ≠ 0#4 := by
  rw [satisfied_iff, show 15#4 = BitVec.allOnes 4 from rfl, BitVec.and_allOnes]

theorem satisfied_comm (f c : Mask) : satisfied f c = satisfied c f := by
  rw [satisfied, satisfied, BitVec.and_comm]

/-- A single flag passes exactly the masks that hold its bit. -/
theorem satisfied_twoPow {k : Nat} (hk : k < 4) (c : Mask) :
    satisfied (BitVec.twoPow 4 k) c = c.getLsbD k := by
  have hbit : BitVec.twoPow 4 k ≠ 0#4 := fun h => by
    have := congrArg (·.getLsbD k) h
    simp [hk] at this
  rw [satisfied, BitVec.twoPow_and]
  cases c.getLsbD k <;> simp [hbit]

/-! #### Skipped instructions, 43_sequencer.md R160 -/

theorem exec_skipped {i : Instr} {s : State} (h : s.flags &&& i.cond = 0#4) :
    exec i s = .next (advancePc s) := by
  rcases exec_cases i s with ⟨-, he⟩ | ⟨hx, -⟩
  · exact he
  · exact absurd h ((satisfied_iff _ _).mp hx)

theorem onlyAdvancedByOne_advancePc (s : State) : OnlyAdvancedByOne s (advancePc s) :=
  ⟨pc_advancePc_of_lt, fun _ => x_advancePc_other s, advancePc_flags s, advancePc_halted s,
    advancePc_mem s⟩

/-! #### The observation event, 43_sequencer.md R158 -/

theorem observe_of_fetch {s : State} {w : Word} (h : fetch s = some w) :
    observe s = some { address := s.pc, word := w, instr := decode w } := by
  rw [observe, h, Option.map_some]

theorem observe_of_fetch_none {s : State} (h : fetch s = none) : observe s = none := by
  rw [observe, h, Option.map_none]

/-! #### The ends of a step, 43_sequencer.md R172 -/

theorem step_next_or_fault (s : State) :
    (∃ t, step s = .next t) ∨ ∃ a l, step s = .fault (.memFault a l) := by
  cases hf : fetch s with
  | none => exact .inr ⟨_, _, step_of_fetch_none hf⟩
  | some w =>
    rw [step_of_fetch hf]
    rcases exec_next_or_fault (decode w) s with ⟨t, he, -⟩ | ⟨-, -, -, he⟩
    · exact .inl ⟨t, he⟩
    · exact .inr ⟨_, _, he⟩

/-- A step faults only at an address the memory does not answer, of its fetch or its data access. -/
theorem step_fault_read {s l : State} {a : Int} (h : step s = .fault (.memFault a l)) :
    s.mem.read a = none := by
  cases hf : fetch s with
  | none =>
    rw [step_of_fetch_none hf] at h
    cases h
    exact hf
  | some w =>
    rw [step_of_fetch hf] at h
    obtain ⟨-, -, -, hout, -⟩ := exec_fault h
    exact read_of_not_has hout

/-! #### The run loop, 43_sequencer.md R168, R171 -/

theorem runLoop_zero {s : State} (h : s.halted = false) : runLoop 0 s = .outOfFuel s := by
  simp [runLoop, h]

theorem runLoop_succ_of_next (fuel : Nat) {s t : State} (h : s.halted = false)
    (ht : step s = .next t) : runLoop (fuel + 1) s = runLoop fuel t := by
  rw [runLoop, ht]
  simp [h]

theorem runLoop_succ_of_fault (fuel : Nat) {s : State} {f : Fault} (h : s.halted = false)
    (hf : step s = .fault f) : runLoop (fuel + 1) s = .stopped f := by
  rw [runLoop, hf]
  simp [h]

/-- What is reached from the next state is reached from the state before it. -/
theorem Reaches.head {s t u : State} (h : step s = .next t) (hu : Reaches t u) : Reaches s u :=
  reaches_of_step (P := Reaches s) (fun v w => .tail v w) (.tail s t .refl h) hu

/-- Every way a run can end: halted, the same for any larger fuel; out of fuel and not halted; or in
a cycle that faults. The first two ends are states the steps reach. -/
theorem runLoop_cases (fuel : Nat) (s : State) :
    (∃ t, t.halted = true ∧ Reaches s t ∧ ∀ more, fuel ≤ more → runLoop more s = .finished t) ∨
    (∃ t, t.halted = false ∧ Reaches s t ∧ runLoop fuel s = .outOfFuel t) ∨
    ∃ f, runLoop fuel s = .stopped f := by
  induction fuel generalizing s with
  | zero =>
    cases hs : s.halted with
    | true => exact .inl ⟨s, hs, .refl, fun more _ => runLoop_of_halted more hs⟩
    | false => exact .inr (.inl ⟨s, hs, .refl, runLoop_zero hs⟩)
  | succ n ih =>
    cases hs : s.halted with
    | true => exact .inl ⟨s, hs, .refl, fun more _ => runLoop_of_halted more hs⟩
    | false =>
      rcases step_next_or_fault s with ⟨t, ht⟩ | ⟨a, l, hf⟩
      · rw [runLoop_succ_of_next n hs ht]
        rcases ih t with ⟨u, hu, hr, hmore⟩ | ⟨u, hu, hr, he⟩ | hstop
        · refine .inl ⟨u, hu, hr.head ht, fun more hle => ?_⟩
          obtain ⟨m, rfl⟩ := Nat.exists_eq_add_of_le' hle
          rw [← Nat.add_assoc, runLoop_succ_of_next _ hs ht]
          exact hmore _ (Nat.le_add_left n m)
        · exact .inr (.inl ⟨u, hu, hr.head ht, he⟩)
        · exact .inr (.inr hstop)
      · exact .inr (.inr ⟨_, runLoop_succ_of_fault n hs hf⟩)

end Sys2Proof.Machine

/-! ### PROOFS. The statements about the sequencer, 43_sequencer.md. -/

namespace Sys2Proof.Proofs

open Sys2Proof.Machine

/-- Settles O19: whatever the instruction, a skipped one leaves the advanced state. -/
theorem skippedInstructionOnlyAdvances : Obligations.SkippedInstructionOnlyAdvances :=
  fun _ s h => ⟨advancePc s, exec_skipped h, onlyAdvancedByOne_advancePc s⟩

/-- Settles O20: the next state is the arithmetic commit, whose target holds the result;
register 0 drops it by `registerZeroIsHardWired`. -/
theorem arithmeticCommitWritesBoth : Obligations.ArithmeticCommitWritesBoth := by
  intro i s hop hx
  obtain ⟨-, -, hdrop, -⟩ := registerZeroIsHardWired
  refine ⟨_, exec_arithmetic_executed hop hx, rfl, ?target, ?zero, ?jump, ?overflow⟩
  case target => exact fun hrt => x_commitArithmetic_target _ _ _ s hrt
  case zero => exact fun hrt => hdrop i s _ hrt (exec_arithmetic_executed hop hx)
  case jump =>
    intro hrt
    rw [hrt]
    exact x_commitArithmetic_target _ _ _ s pcReg_ne_zero
  case overflow =>
    intro hv
    exact ⟨(mask_eq_overflow_iff _).mpr hv, fun hrt =>
      (x_commitArithmetic_target _ _ _ s hrt).trans (alu_result_of_overflow hv)⟩

/-- Settles O32: a step without a next state is the fault of its fetch or of its data access. -/
theorem onlyMemFaultStopsACycle : Obligations.OnlyMemFaultStopsACycle :=
  ⟨step_next_or_fault, fun _ _ hload hstore => exec_has_next (.inl ⟨hload, hstore⟩),
    fun _ _ _ => step_fault_read⟩

/-- Settles O52: a run is the loop from its launch, and only the first two ways of `runLoop_cases`
end in a state. -/
theorem runEndsOnlyWhenHalted : Obligations.RunEndsOnlyWhenHalted := by
  intro s t start fuel
  simp only [run]
  rcases runLoop_cases fuel (launch start s) with ⟨u, hu, hr, hmore⟩ | ⟨u, hu, hr, he⟩ | ⟨f, he⟩
  · rw [hmore fuel le_rfl]
    exact ⟨fun h => RunEnd.finished.inj h ▸ ⟨hu, hr, hmore⟩, nofun⟩
  · rw [he]
    exact ⟨nofun, fun h => RunEnd.outOfFuel.inj h ▸ ⟨hu, hr⟩⟩
  · rw [he]
    exact ⟨nofun, nofun⟩

/-- Settles O31, by whether the fetch is in the memory. -/
theorem stepRunsDecodedInstruction : Obligations.StepRunsDecodedInstruction := by
  intro s
  constructor
  · exact fun lo hi => step_of_fetch (fetch_of_has ⟨lo, hi⟩)
  · exact fun hout => step_of_fetch_none (fetch_of_not_has (by simp only [Memory.has]; omega))

/-- Settles O41: the test is symmetric, so flags 15 pass as the mask ALWAYS does, and each
single flag is a power of two. -/
theorem predicateTest : Obligations.PredicateTest := fun f c =>
  ⟨satisfied_iff f c, satisfied_never f, satisfied_always_iff f,
    satisfied_comm 15#4 c ▸ satisfied_always_iff c,
    satisfied_twoPow (k := 0) (by decide) c, satisfied_twoPow (k := 1) (by decide) c,
    satisfied_twoPow (k := 2) (by decide) c, satisfied_twoPow (k := 3) (by decide) c⟩

/-- Settles O42: the event is made of the fetched word and the program counter, which neither the
flags nor the halted bit touch. -/
theorem observationEvent : Obligations.ObservationEvent :=
  fun _ => ⟨fun _ => observe_of_fetch, observe_of_fetch_none, fun _ _ => rfl⟩

end Sys2Proof.Proofs

end

/-! ### SUPPORT. The next state of an executed arithmetic instruction in the words of the claims
(44_arithmetic.md R184). -/

section

open Sys2Proof.Claims

namespace Sys2Proof.Machine

/-! #### The ALU's answer as `answer` and `answerFlag` -/

theorem answer_of_inRange {e : Int} (h : inRange e) : answer e = e := if_pos h

theorem answer_of_not_inRange {e : Int} (h : ¬ inRange e) : answer e = 0 := if_neg h

theorem answerFlag_of_inRange {e : Int} (h : inRange e) : answerFlag e = (classify e).mask := by
  rw [answerFlag, if_pos h, classify, apply_ite AluFlag.mask, apply_ite AluFlag.mask]
  rfl

theorem answerFlag_of_not_inRange {e : Int} (h : ¬ inRange e) : answerFlag e = 8#4 := if_neg h

/-- In the range the flag tells the sign. -/
theorem answerFlag_iff {e : Int} (h : inRange e) :
    (answerFlag e = 1#4 ↔ e < 0) ∧ (answerFlag e = 2#4 ↔ e = 0) ∧ (answerFlag e = 4#4 ↔ 0 < e) := by
  rw [answerFlag_of_inRange h]
  exact mask_classify_iff e

/-- But for a division by zero the ALU answers for the exact value. -/
theorem alu_eq_answer {op : Op} {a b : Int} (h : ¬ (op = .div ∧ b = 0)) :
    (alu op a b).result = answer (exact op a b) ∧
      (alu op a b).flag.mask = answerFlag (exact op a b) := by
  by_cases hr : inRange (exact op a b)
  · rw [alu_of_exact_inRange h hr, answer_of_inRange hr, answerFlag_of_inRange hr]
    exact ⟨rfl, rfl⟩
  · rw [alu_of_fault (.inr hr), answer_of_not_inRange hr, answerFlag_of_not_inRange hr]
    exact ⟨rfl, rfl⟩

/-! #### The whole next state -/

theorem arithmeticNext_commitArithmetic (op : Op) (a b : Int) (rt : RegIdx) (s : State) :
    ArithmeticNext s (commitArithmetic (alu op a b) rt s) rt (alu op a b).result
      (alu op a b).flag.mask := by
  refine ⟨⟨x_commitArithmetic_target op a b s, fun hrt => ?pc, fun r hrt hpc => ?other⟩, rfl,
    commitArithmetic_halted _ rt s, commitArithmetic_mem _ rt s⟩
  case pc => rw [x_commitArithmetic_other _ s hrt.symm, x_advancePc, if_pos rfl]
  case other => rw [x_commitArithmetic_other _ s hrt, x_advancePc, if_neg hpc]

/-- An executed arithmetic instruction commits what the ALU answers for its operands. -/
theorem exec_arithmeticNext {i : Instr} {s : State} (hop : Arithmetic i.op)
    (hx : Executes s i.cond) :
    ∃ t, exec i s = .next t ∧
      ArithmeticNext s t i.rt (alu i.op (s.x i.rs1) (s.x i.rs2 + i.off)).result
        (alu i.op (s.x i.rs1) (s.x i.rs2 + i.off)).flag.mask :=
  ⟨_, exec_arithmetic_executed hop hx, arithmeticNext_commitArithmetic ..⟩

/-- But for a division by zero it commits the answer for the exact value of its operands. -/
theorem exec_arithmeticNext_exact {i : Instr} {s : State} (hop : Arithmetic i.op)
    (hx : Executes s i.cond) (hz : ¬ (i.op = .div ∧ s.x i.rs2 + i.off = 0)) :
    ∃ t, exec i s = .next t ∧
      ArithmeticNext s t i.rt (answer (exact i.op (s.x i.rs1) (s.x i.rs2 + i.off)))
        (answerFlag (exact i.op (s.x i.rs1) (s.x i.rs2 + i.off))) := by
  obtain ⟨hresult, hflag⟩ := alu_eq_answer (a := s.x i.rs1) hz
  rw [← hresult, ← hflag]
  exact exec_arithmeticNext hop hx

/-- A commit to register 0 changes no register but the program counter (44_arithmetic.md R186). -/
theorem x_of_committed_zero {s t : State} {v : Int} (h : Committed s t 0 v) {r : RegIdx}
    (hr : r ≠ 15) : t.x r = s.x r := by
  obtain ⟨-, -, hother⟩ := h
  by_cases h0 : r = 0
  · rw [h0, x_zero, x_zero]
  · exact hother r h0 hr

/-- The two ways an arithmetic instruction has a next state: skipped or committed. -/
theorem exec_arithmetic_next {i : Instr} {s t : State} (hop : Arithmetic i.op)
    (h : exec i s = .next t) :
    t = advancePc s ∨ t = commitArithmetic (aluOf i.op s i.rs1 i.rs2 i.off) i.rt s := by
  rw [exec_arithmetic s hop] at h
  rcases predicated_next h with ⟨-, ht⟩ | ⟨-, ht⟩
  · exact .inr (Host.Outcome.next.inj ht).symm
  · exact .inl ht

/-- The predicate ALWAYS is satisfied in every state with a flag set. -/
theorem executes_always {s : State} (h : s.flags ≠ 0#4) : Executes s 15#4 :=
  (satisfied_iff _ _).mp ((satisfied_always_iff _).mpr h)

end Sys2Proof.Machine

/-! ### PROOFS. The statements about ADD, SUB, MUL and DIV, 44_arithmetic.md. -/

namespace Sys2Proof.Proofs

open Sys2Proof.Machine

/-- Settles O10: the exact value of ADD always exists. -/
theorem addResult : Obligations.AddResult := fun _ cond rt rs1 rs2 off hx =>
  exec_arithmeticNext_exact (i := .add cond rt rs1 rs2 off) (.inl rfl) hx nofun

/-- Settles O11: the exact value of SUB always exists. -/
theorem subResult : Obligations.SubResult := fun _ cond rt rs1 rs2 off hx =>
  exec_arithmeticNext_exact (i := .sub cond rt rs1 rs2 off) (.inr (.inl rfl)) hx nofun

/-- Settles O12: the exact value of MUL always exists. -/
theorem mulResult : Obligations.MulResult := fun _ cond rt rs1 rs2 off hx =>
  exec_arithmeticNext_exact (i := .mul cond rt rs1 rs2 off) (.inr (.inr (.inl rfl))) hx nofun

/-- Settles O13, by whether the divisor is zero: there the ALU answers the fault, else for the floor
of the quotient. -/
theorem divResult : Obligations.DivResult := by
  intro s cond rt rs1 rs2 off hx
  have hop : Arithmetic (Instr.div cond rt rs1 rs2 off).op := .inr (.inr (.inr rfl))
  by_cases hz : s.x rs2 + off = 0
  · obtain ⟨t, ht, hnext⟩ := exec_arithmeticNext hop hx
    have hfault : alu .div (s.x rs1) (s.x rs2 + off) = { result := 0, flag := .overflow } :=
      alu_of_fault (.inl ⟨rfl, hz⟩)
    simp only [Instr.op, Instr.rs1, Instr.rs2, Instr.off, hfault] at hnext
    exact ⟨t, ht, fun _ => hnext, fun hne => absurd hz hne⟩
  · obtain ⟨t, ht, hnext⟩ := exec_arithmeticNext_exact hop hx fun h => hz h.2
    exact ⟨t, ht, fun h => absurd h hz, fun _ => hnext⟩

/-- With register 0 as both sources and target 15, ADD jumps to its offset. -/
theorem add_jumps_to_offset {s : State} {off : Int} {f : Mask} (hs : s.flags ≠ 0#4)
    (hoff : inRange off) (hf : answerFlag off = f) :
    ∃ t, exec (.add 15#4 15 0 0 off) s = .next t ∧ t.pc = off ∧ t.flags = f := by
  obtain ⟨t, ht, ⟨hpc, -⟩, hflags, -⟩ := addResult s 15#4 15 0 0 off (executes_always hs)
  rw [x_zero, zero_add, zero_add] at hpc hflags
  exact ⟨t, ht, (hpc pcReg_ne_zero).trans (answer_of_inRange hoff), hflags.trans hf⟩

/-- Settles O21: executed by `arithmeticCommitWritesBoth`, skipped by
`skippedInstructionOnlyAdvances`; the two words jump to their offsets 2 and 0. -/
theorem arithmeticJump : Obligations.ArithmeticJump := by
  refine ⟨?executed, ?skipped, ?toTwo, ?toZero⟩
  case executed =>
    intro i s hop hrt hx
    obtain ⟨t, ht, hflags, -, -, hjump, hfault⟩ := arithmeticCommitWritesBoth i s hop hx
    refine ⟨t, ht, hjump hrt, hflags, fun hv => ?_⟩
    exact ⟨(hjump hrt).trans (alu_result_of_overflow hv), (hfault hv).1⟩
  case skipped => exact fun i s _ _ hx => skippedInstructionOnlyAdvances i s (not_not.mp hx)
  case toTwo =>
    have hdecode : decode 0x0FFC0002#32 = .add 15#4 15 0 0 2 := by decide
    rw [hdecode]
    exact fun s hs => add_jumps_to_offset hs (by decide) (by decide)
  case toZero => exact fun s hs => add_jumps_to_offset hs (by decide) (by decide)

/-- Settles O22: a commit to register 0 is dropped; the word is an ADD whose exact sum is
register 1. -/
theorem arithmeticTestWithoutTarget : Obligations.ArithmeticTestWithoutTarget := by
  constructor
  · intro i s hop hrt hx
    obtain ⟨t, ht, hregs, hflags, -⟩ := exec_arithmeticNext hop hx
    exact ⟨t, ht, fun r hr => x_of_committed_zero (hrt ▸ hregs) hr, hflags⟩
  · intro s hs
    have hdecode : decode 0x0FC04000#32 = .add 15#4 0 1 0 0 := by decide
    rw [hdecode]
    obtain ⟨t, ht, -, hflags, -⟩ := addResult s 15#4 0 1 0 0 (executes_always hs)
    obtain ⟨hneg, hzero, hpos⟩ := answerFlag_iff (x_bounds s 1)
    rw [x_zero, add_zero, add_zero] at hflags
    rw [← hflags] at hneg hzero hpos
    exact ⟨t, ht, hneg.mpr, hzero.mpr, hpos.mpr⟩

/-- Settles O23: the exact value is the difference, and its sign is the comparison. -/
theorem subComparesRegisters : Obligations.SubComparesRegisters := by
  intro s cond ra rb hx
  obtain ⟨t, ht, hregs, hflags, -⟩ := subResult s cond 0 ra rb 0 hx
  rw [add_zero] at hflags
  refine ⟨t, ht, fun r hr => x_of_committed_zero hregs hr, fun hin => ?_, fun hout => ?_⟩
  · obtain ⟨hneg, hzero, hpos⟩ := answerFlag_iff hin
    rw [hflags]
    exact ⟨hneg.trans sub_neg, hzero.trans sub_eq_zero, hpos.trans sub_pos⟩
  · exact hflags.trans (answerFlag_of_not_inRange hout)

/-- Settles O24: M and Z share no bit, so the instruction is skipped. -/
theorem minusPredicateUnderZeroFlag : Obligations.MinusPredicateUnderZeroFlag := by
  intro i s _ hcond hflags
  have hskip : s.flags &&& i.cond = 0#4 := by rw [hcond, hflags]; decide
  obtain ⟨t, ht, hpc, hregs, hkept, -⟩ := skippedInstructionOnlyAdvances i s hskip
  exact ⟨t, ht, hregs i.rt, hkept, hpc⟩

/-- Settles O26: neither the increment nor the arithmetic commit touches the halted bit or the
memory. -/
theorem arithmeticFrame : Obligations.ArithmeticFrame := by
  intro i s t hop ht
  refine ⟨fun r => (exec_next ht).x_other, ?_⟩
  rcases exec_arithmetic_next hop ht with rfl | rfl
  · rw [advancePc_halted, advancePc_mem]
    exact ⟨rfl, fun _ => rfl⟩
  · rw [commitArithmetic_halted, commitArithmetic_mem]
    exact ⟨rfl, fun _ => rfl⟩

end Sys2Proof.Proofs

end

/-! ### SUPPORT. What a LOAD commits, and the next state of a skipped LOAD or STORE
(45_load_store.md R190, R191). -/

section

open Sys2Proof.Claims

namespace Sys2Proof.Machine

/-- A word written after the increment is committed, whatever register it goes to. -/
theorem committed_writeReg_advancePc (s : State) (rt : RegIdx) (w : Word) :
    Committed s (writeReg (advancePc s) rt w) rt (signed32 w) := by
  refine ⟨x_writeReg_same _ w, fun hrt => ?pc, fun r hrt hpc => ?other⟩
  case pc => rw [x_writeReg_other _ w hrt.symm, x_advancePc, if_pos rfl]
  case other => rw [x_writeReg_other _ w hrt, x_advancePc_other s hpc]

/-- The only next state of a skipped instruction. -/
theorem exec_skipped_next {i : Instr} {s t : State} (hx : ¬ Executes s i.cond)
    (h : exec i s = .next t) : t = advancePc s := by
  rw [exec_skipped (not_not.mp hx)] at h
  exact (Host.Outcome.next.inj h).symm

end Sys2Proof.Machine

/-! ### PROOFS. The statements about LOAD and STORE, 45_load_store.md. -/

namespace Sys2Proof.Proofs

open Sys2Proof.Machine

/-- Settles O14: inside the memory there is a next state, and it is the advanced state with the word
read written to the target. -/
theorem loadResult : Obligations.LoadResult := by
  intro s cond rt rs1 rs2 off hx lo hi
  obtain ⟨t, ht⟩ := exec_has_next (i := .load cond rt rs1 rs2 off) (.inr ⟨lo, hi⟩)
  obtain rfl := exec_load_next hx rfl ht
  refine ⟨_, ht, committed_writeReg_advancePc s rt _, ?flags, ?halted, ?mem⟩
  case flags => rw [writeReg_flags, advancePc_flags]
  case halted => rw [writeReg_halted, advancePc_halted]
  case mem => rw [writeReg_mem, advancePc_mem]

/-- Settles O15: the memory is the one after the write of what register `rt` holds after the
increment, and the rest is the advanced state. -/
theorem storeResult : Obligations.StoreResult := by
  intro s cond rt rs1 rs2 off hx lo hi
  obtain ⟨m, hm, he⟩ := exec_store_executed (rt := rt) hx rfl ⟨lo, hi⟩
  obtain ⟨-, hsize, hword, hother, -⟩ := write_some hm
  have hstored : (m.word (address s rs1 rs2 off).toNat).toInt =
      if rt = 15 then nextPc s else s.x rt := by
    rw [hword]
    exact x_advancePc s rt
  exact ⟨_, he, pc_advancePc_eq_nextPc s, fun _ => x_advancePc_other s, advancePc_flags s,
    advancePc_halted s, hsize, hstored, hother⟩

/-- Settles O27: executed, the next state differs from the advanced one in the target alone; skipped,
it is the advanced one. -/
theorem loadFrame : Obligations.LoadFrame := by
  intro s t cond rt rs1 rs2 off ht
  refine ⟨fun r => (exec_next ht).x_other, ?_⟩
  by_cases hx : Executes s cond
  · rw [exec_load_next hx rfl ht, writeReg_flags, writeReg_halted, writeReg_mem, advancePc_flags,
      advancePc_halted, advancePc_mem]
    exact ⟨rfl, rfl, fun _ => rfl⟩
  · rw [exec_skipped_next hx ht, advancePc_flags, advancePc_halted, advancePc_mem]
    exact ⟨rfl, rfl, fun _ => rfl⟩

/-- Settles O28: executed, the next state differs from the advanced one in the word written; skipped,
it is the advanced one. -/
theorem storeFrame : Obligations.StoreFrame := by
  intro s t cond rt rs1 rs2 off ht
  have haddr := storeAddress_eq_address s rs1 rs2 off
  by_cases hx : Executes s cond
  · obtain ⟨m, hm, rfl⟩ := exec_store_next hx ht
    rw [← haddr] at hm
    refine ⟨fun _ => x_advancePc_other s, advancePc_flags s, advancePc_halted s, haddr, ?_,
      absurd hx⟩
    rintro a rfl b hb
    exact read_of_write_other hm hb
  · obtain rfl := exec_skipped_next hx ht
    refine ⟨fun _ => x_advancePc_other s, advancePc_flags s, advancePc_halted s, haddr, ?_⟩
    rw [advancePc_mem]
    exact ⟨fun _ _ _ _ => rfl, fun _ _ => rfl⟩

end Sys2Proof.Proofs

end

/-! ### SUPPORT. The next state of an executed HALT, and the advanced state in the words of the claims
(46_control.md R200, R201). -/

section

open Sys2Proof.Claims

namespace Sys2Proof.Machine

theorem exec_halt_executed {i : Instr} {s : State} (hop : i.op = .halt) (hx : Executes s i.cond) :
    exec i s = .next ((advancePc s).withHalted true) := by
  cases i with
  | halt cond rt rs1 rs2 off =>
    rw [exec_halt]
    exact predicated_executed _ ((satisfied_iff _ _).mpr hx)
  | _ => cases hop

/-- A HALT with a next state was executed or skipped. -/
theorem exec_halt_next {s t : State} {cond : Mask} {rt rs1 rs2 : RegIdx} {off : Int}
    (h : exec (.halt cond rt rs1 rs2 off) s = .next t) :
    t = (advancePc s).withHalted true ∨ t = advancePc s := by
  rw [exec_halt] at h
  rcases predicated_next h with ⟨-, he⟩ | ⟨-, he⟩
  · exact .inl (Host.Outcome.next.inj he).symm
  · exact .inr he

theorem onlyAdvanced_advancePc (s : State) : OnlyAdvanced s (advancePc s) :=
  ⟨pc_advancePc_eq_nextPc s, fun _ => x_advancePc_other s, advancePc_flags s, advancePc_halted s,
    advancePc_mem s⟩

end Sys2Proof.Machine

/-! ### PROOFS. The statements about HALT and NOP, 46_control.md. -/

namespace Sys2Proof.Proofs

open Sys2Proof.Machine

/-- Settles O17: the next state is the advanced one with the halted bit set, which no register, no
flag and no word depends on. -/
theorem haltResult : Obligations.HaltResult := by
  intro s cond rt rs1 rs2 off hx
  obtain ⟨hpc, hregs, hflags, -, hmem⟩ := onlyAdvanced_advancePc s
  exact ⟨_, exec_halt_executed (i := .halt cond rt rs1 rs2 off) rfl hx, rfl, hpc, hregs, hflags,
    hmem⟩

/-- Settles O18: the next state is the advanced one, whatever the predicate says. -/
theorem nopResult : Obligations.NopResult :=
  fun s cond rt rs1 rs2 off => ⟨_, exec_nop cond rt rs1 rs2 off s, onlyAdvanced_advancePc s⟩

/-- Settles O29: each next state is the advanced one, but for the halted bit of an executed HALT. -/
theorem controlFrame : Obligations.ControlFrame := by
  intro s t cond rt rs1 rs2 off
  obtain ⟨-, hregs, hflags, hhalted, hmem⟩ := onlyAdvanced_advancePc s
  have hread (a : Int) : (advancePc s).mem.read a = s.mem.read a := by rw [hmem]
  constructor
  · intro ht
    rcases exec_halt_next ht with rfl | rfl
    · exact ⟨hregs, hflags, hread⟩
    · exact ⟨hregs, hflags, hread⟩
  · intro ht
    rw [exec_nop] at ht
    obtain rfl := Host.Outcome.next.inj ht
    exact ⟨hregs, hflags, hhalted, hread⟩

/-- Settles O53: the cycle is that of the executed HALT, and the run loop finishes in a halted state
with any fuel. -/
theorem haltIsTerminalForRun : Obligations.HaltIsTerminalForRun := by
  intro s w fuel hw hop hx
  have hstep : step s = .next ((advancePc s).withHalted true) :=
    (step_of_fetch hw).trans (exec_halt_executed hop hx)
  have hdone := runLoop_of_halted fuel (withHalted_halted (advancePc s) true)
  exact ⟨_, hstep, rfl, pc_advancePc_eq_nextPc s, hdone, fun hs =>
    (runLoop_succ_of_next fuel hs hstep).trans hdone⟩

end Sys2Proof.Proofs

end

/-! ### SUPPORT. When an instruction faults, as an equivalence (60_exceptions.md R224): the converse of
`exec_fault`. -/

section

open Sys2Proof.Claims

namespace Sys2Proof.Machine

/-- An executed LOAD or STORE with a next state had its address in the memory. -/
theorem NextBy.has_address {i : Instr} {s t : State} (h : NextBy i s t) (hx : Executes s i.cond)
    (hop : i.op = .load ∨ i.op = .store) : s.mem.has (address s i.rs1 i.rs2 i.off) := by
  cases h with
  | advanced hskip =>
    rcases hskip with hn | hnop
    · exact absurd hx hn
    · simp [hnop] at hop
  | halt _ hhalt => simp [hhalt] at hop
  | arithmetic _ harith => rcases hop with e | e <;> simp [Arithmetic, e] at harith
  | load _ _ hin => exact hin
  | store _ _ _ hm => exact (write_some hm).1

/-- An executed LOAD or STORE outside the memory faults there, with the program counter advanced. -/
theorem exec_fault_of_not_has {i : Instr} {s : State} (hx : Executes s i.cond)
    (hop : i.op = .load ∨ i.op = .store) (hout : ¬ s.mem.has (address s i.rs1 i.rs2 i.off)) :
    exec i s = .fault (.memFault (address s i.rs1 i.rs2 i.off) (advancePc s)) := by
  rcases exec_next_or_fault i s with ⟨t, -, hnext⟩ | ⟨-, -, -, he⟩
  · exact absurd (hnext.has_address hx hop) hout
  · exact he

/-- The faults of an instruction are those of `exec_fault`, and each of those happens. -/
theorem exec_fault_iff {i : Instr} {s l : State} {a : Int} :
    exec i s = .fault (.memFault a l) ↔
      Executes s i.cond ∧ (i.op = .load ∨ i.op = .store) ∧ a = address s i.rs1 i.rs2 i.off ∧
        (a < 0 ∨ s.mem.size ≤ a) ∧ l = advancePc s := by
  rw [← not_has_iff]
  constructor
  · exact exec_fault
  · rintro ⟨hx, hop, rfl, hout, rfl⟩
    exact exec_fault_of_not_has hx hop hout

end Sys2Proof.Machine

/-! ### PROOFS. The statements about MemFault, 60_exceptions.md. -/

namespace Sys2Proof.Proofs

open Sys2Proof.Machine

/-- Settles O16: outside the memory the one outcome left to an executed LOAD or STORE is the fault,
and the state it carries is the advanced one. -/
theorem dataAccessOutsideMemoryFaults : Obligations.DataAccessOutsideMemoryFaults := by
  intro s cond rt rs1 rs2 off hx hout
  have hnot := not_has_iff.mpr hout
  have hleft := onlyAdvanced_advancePc s
  exact ⟨⟨_, exec_fault_of_not_has (i := .load cond rt rs1 rs2 off) hx (.inl rfl) hnot, hleft⟩,
    ⟨_, exec_fault_of_not_has (i := .store cond rt rs1 rs2 off) hx (.inr rfl) hnot, hleft⟩⟩

/-- Settles O33: a step is the fault of its fetch, or it is `exec` of the word fetched, whose faults
`exec_fault_iff` lists. -/
theorem whenACycleFaults : Obligations.WhenACycleFaults := by
  intro s a l
  cases hf : fetch s with
  | none =>
    rw [step_of_fetch_none hf]
    simp [eq_comm]
  | some w =>
    rw [step_of_fetch hf, exec_fault_iff]
    simp

end Sys2Proof.Proofs

end

/-! ### SUPPORT. What the host's actions between cycles and the placing of a word do, and that each
keeps the invariant (70_reset_and_hazards.md R252, R253, R257). -/

section

namespace Sys2Proof.Machine

/-! #### The invariant after a register write and a memory write -/

theorem inv_writeReg {s : State} (h : s.inv) (i : RegIdx) (w : Word) : (writeReg s i w).inv := by
  obtain ⟨hmem, hslot, hflags⟩ := h
  exact ⟨by rwa [writeReg_mem], by rwa [writeReg_slot0], by rwa [writeReg_flags]⟩

/-- A successful write of memory keeps the invariant. -/
theorem inv_withMem_of_write {s : State} (h : s.inv) {a : Int} {w : Word} {m : Memory}
    (hm : s.mem.write a w = some m) : (s.withMem m).inv := by
  obtain ⟨hmem, hslot, hflags⟩ := h
  obtain ⟨-, -, -, -, hkeep⟩ := write_some hm
  exact ⟨hkeep hmem, hslot, hflags⟩

/-! #### Host access to memory -/

/-- All that a host write of memory does: the memory's own write. -/
theorem hostWriteMem_eq_some_iff {s t : State} {a v : Int} :
    hostWriteMem s a v = some t ↔ ∃ m, s.mem.write a (bits32 v) = some m ∧ s.withMem m = t :=
  Option.map_eq_some_iff

theorem hostWriteMem_of_not_has {s : State} {a : Int} (v : Int) (h : ¬ s.mem.has a) :
    hostWriteMem s a v = none := by
  rw [hostWriteMem, write_of_not_has _ h, Option.map_none]

theorem hostReadMem_of_not_has {s : State} {a : Int} (h : ¬ s.mem.has a) :
    hostReadMem s a = none := by
  rw [hostReadMem, read_of_not_has h, Option.map_none]

/-- An in-range value written by the host is read back. -/
theorem hostReadMem_of_write_same {s : State} {m : Memory} {a v : Int}
    (h : s.mem.write a (bits32 v) = some m) (lo : -2147483648 ≤ v) (hi : v ≤ 2147483647) :
    hostReadMem (s.withMem m) a = some v := by
  rw [hostReadMem, withMem_mem, read_of_write_same h, Option.map_some, signed32_bits32 lo hi]

theorem hostReadMem_of_write_other {s : State} {m : Memory} {a b : Int} {w : Word}
    (h : s.mem.write a w = some m) (hb : b ≠ a) :
    hostReadMem (s.withMem m) b = hostReadMem s b := by
  rw [hostReadMem, withMem_mem, read_of_write_other h hb, hostReadMem]

/-! #### The launch of a run -/

theorem launch_pc {start : Int} (s : State) (lo : -2147483648 ≤ start) (hi : start ≤ 2147483647) :
    (launch start s).pc = start := by
  rw [launch, State.pc, x_writeReg_same _ _ pcReg_ne_zero, signed32_bits32 lo hi]

theorem launch_x_other (start : Int) (s : State) {r : RegIdx} (h : r ≠ pcReg) :
    (launch start s).x r = s.x r := by
  rw [launch, x_writeReg_other _ _ h, x_withHalted]

/-! #### The word placed where the next step fetches -/

/-- Where the program counter is an address of the memory, the placing is a write there. -/
theorem withFetchWord_of_has {s : State} (nbits n : Nat) (h : s.mem.has s.pc) :
    ∃ m, s.mem.write s.pc (BitVec.ofNat 32 (n % 2 ^ nbits)) = some m ∧
      s.withFetchWord nbits n = s.withMem m :=
  ⟨_, if_pos h, by simp only [State.withFetchWord, if_pos h]⟩

/-- A program counter of 0 is an address of every memory of at least one word. -/
theorem has_pc_writeReg_zero {s : State} (h : 0 < s.mem.size) :
    (writeReg s pcReg 0#32).mem.has (writeReg s pcReg 0#32).pc := by
  have hpc : (writeReg s pcReg 0#32).pc = 0 := x_writeReg_same s _ pcReg_ne_zero
  rw [hpc, writeReg_mem]
  exact ⟨le_rfl, by exact_mod_cast h⟩

/-- Anywhere else the placing is the placing with the program counter at 0. -/
theorem withFetchWord_of_not_has {s : State} (nbits n : Nat) (hsize : 0 < s.mem.size)
    (h : ¬ s.mem.has s.pc) :
    s.withFetchWord nbits n = (writeReg s pcReg 0#32).withFetchWord nbits n := by
  simp only [State.withFetchWord, if_neg h, if_pos (has_pc_writeReg_zero hsize)]

theorem fetch_withFetchWord_of_has {s : State} (nbits n : Nat) (h : s.mem.has s.pc) :
    fetch (s.withFetchWord nbits n) = some (BitVec.ofNat 32 (n % 2 ^ nbits)) := by
  obtain ⟨m, hm, hplaced⟩ := withFetchWord_of_has nbits n h
  rw [hplaced]
  exact read_of_write_same hm

/-- The next fetch reads the placed word, whatever the program counter was. -/
theorem fetch_withFetchWord {s : State} (nbits n : Nat) (hsize : 0 < s.mem.size) :
    fetch (s.withFetchWord nbits n) = some (BitVec.ofNat 32 (n % 2 ^ nbits)) := by
  by_cases h : s.mem.has s.pc
  · exact fetch_withFetchWord_of_has nbits n h
  · rw [withFetchWord_of_not_has nbits n hsize h]
    exact fetch_withFetchWord_of_has nbits n (has_pc_writeReg_zero hsize)

end Sys2Proof.Machine

/-! ### PROOFS. The statements about reset and the host's side, 70_reset_and_hazards.md, and the
worked words of the encoding. -/

namespace Sys2Proof.Proofs

open Sys2Proof.Machine

/-- Settles O46: a put and a launch write a register and keep the memory; a memory write keeps the
canonical form. -/
theorem hostActionsKeepTheInvariant : Obligations.HostActionsKeepTheInvariant := by
  intro s hs
  refine ⟨fun i v => inv_writeReg hs i _, fun a v t ht => ?_, fun start => inv_launch start hs⟩
  obtain ⟨m, hm, rfl⟩ := hostWriteMem_eq_some_iff.mp ht
  exact inv_withMem_of_write hs hm

/-- Settles O51: the launch clears the halted bit and writes register 15, with a value that narrowing
keeps. -/
theorem launchSetsPcAndClearsHalted : Obligations.LaunchSetsPcAndClearsHalted :=
  fun s start lo hi => ⟨launch_pc s lo hi, launch_halted start s, fun _ => launch_x_other start s,
    launch_flags start s, launch_mem start s⟩

/-- Settles O54, by what a host read and a host write do outside and inside the memory. -/
theorem hostMemoryAccess : Obligations.HostMemoryAccess := by
  intro s a v lo hi
  constructor
  · intro hout
    have hnot : ¬ s.mem.has a := not_has_iff.mpr hout
    exact ⟨hostReadMem_of_not_has hnot, hostWriteMem_of_not_has v hnot⟩
  · intro hlo hin
    obtain ⟨m, hm⟩ := write_of_has (bits32 v) ⟨hlo, hin⟩
    exact ⟨s.withMem m, hostWriteMem_eq_some_iff.mpr ⟨m, hm, rfl⟩,
      hostReadMem_of_write_same hm lo hi, fun _ hb => hostReadMem_of_write_other hm hb, rfl, rfl, rfl⟩

/-- Settles O55: the next fetch reads the placed word, and inside the memory the placing is one
memory write. -/
theorem placedWordIsRunNext : Obligations.PlacedWordIsRunNext := by
  intro s n hsize
  constructor
  · have hword : BitVec.ofNat 32 (n % 2 ^ 32) = BitVec.ofNat 32 n :=
      BitVec.eq_of_toNat_eq (by simp)
    exact step_of_fetch (hword ▸ fetch_withFetchWord 32 n hsize)
  · intro lo hi
    obtain ⟨m, hm, hplaced⟩ := withFetchWord_of_has 32 n ⟨lo, hi⟩
    rw [hplaced]
    exact ⟨rfl, rfl, rfl, fun _ ha => read_of_write_other hm ha⟩

/-- Settles O47: the reset memory is canonical, and a construction over a canonical memory has slot 0
at 0 and the flags ALWAYS. -/
theorem resetMeetsTheInvariant : Obligations.ResetMeetsTheInvariant :=
  ⟨inv_construct reset_mem_wf, fun _ => inv_construct⟩

/-- Settles O1, by evaluating the decoder on each word. -/
theorem workedWordsDecode : Obligations.WorkedWordsDecode := by
  unfold Obligations.WorkedWordsDecode
  decide

end Sys2Proof.Proofs

end
